-- ==== Sys2Proof/Word.lean ====
section
/-! DEFINITION. The widths of the block's values: a byte, a 16-bit word, a 64-bit command word
(spec/00_scope.md R7, R8; spec/30_encoding.md R78, R84). -/

namespace Sys2Proof

/-- A byte, 8 bits, unsigned (R7 `BYTE`, R8). -/
abbrev Byte := BitVec 8

/-- A 16-bit unsigned value: the CRC, a register, a start address, a count (R7, R8). -/
abbrev Word := BitVec 16

/-- A command word, 64 bits, one number without a byte order (R7 `CMD_W`, R53, R84). -/
abbrev CmdWord := BitVec 64

end Sys2Proof
end

