-- ==== Sys2Proof/Syntax.lean ====
section
/-! DEFINITION. The ten commands, the six fields of a command word and the five formats
(spec/30_encoding.md R78, R79, R80, R81; spec/opcode_table.json). The pseudo-instructions of R86 expand
to these commands and have no constructor. -/

namespace Sys2Proof

/-- The six fields of a 64-bit command word, most significant first (R78). -/
structure Fields where
  /-- bits 63:56, selects the command -/
  op : BitVec 8
  /-- bits 55:48, a slave address -/
  a : BitVec 8
  /-- bits 47:40, a function code or a data byte -/
  b : BitVec 8
  /-- bits 39:24, a start register, a length or a header length -/
  h : BitVec 16
  /-- bits 23:8, a count -/
  c : BitVec 16
  /-- bits 7:0, always zero -/
  z : BitVec 8
deriving DecidableEq, Repr

/-- The five formats of a command word: which fields carry an operand (R79). -/
inductive Format where
  /-- no operand -/
  | N
  /-- a byte in `b` -/
  | B
  /-- a length in `h` -/
  | L
  /-- a slave address in `a` and a header length in `h` -/
  | S
  /-- a request: `a`, `b`, `h` and `c` -/
  | R
deriving DecidableEq, Repr

/-- The ten commands with their operands, each operand as wide as its field (R80, R81). -/
inductive Instr where
  | crcinit
  | crcbyte (b : Byte)
  | crc16
  | crc16n (n : Word)
  | inclr
  | inpush (b : Byte)
  | encreq (slave fc : Byte) (start count : Word)
  | enccmd (slave : Byte) (hlen : Word)
  | decode
  | extract
deriving DecidableEq, Repr

end Sys2Proof
end

