-- ==== Sys2Proof/Decode.lean ====
section
/-! DEFINITION. The decoder of command words, total on all 64-bit values, and the encoder
(spec/30_encoding.md R78 to R84; spec/opcode_table.json). Illegal words are rejected by name. -/

namespace Sys2Proof

/-! ### Bit fields of a command word -/

/-- `op = cmd[63:56]` (R78). -/
def opField (w : CmdWord) : BitVec 8 := w.extractLsb' 56 8

/-- `a = cmd[55:48]`: a slave address (R78, R81). -/
def aField (w : CmdWord) : BitVec 8 := w.extractLsb' 48 8

/-- `b = cmd[47:40]`: a function code or a byte (R78, R81). -/
def bField (w : CmdWord) : BitVec 8 := w.extractLsb' 40 8

/-- `h = cmd[39:24]`: a start register, a length `n` or a header length `hlen` (R78, R81). -/
def hField (w : CmdWord) : BitVec 16 := w.extractLsb' 24 16

/-- `c = cmd[23:8]`: a count (R78, R81). -/
def cField (w : CmdWord) : BitVec 16 := w.extractLsb' 8 16

/-- `z = cmd[7:0]`: always zero in a legal word (R78). -/
def zField (w : CmdWord) : BitVec 8 := w.extractLsb' 0 8

/-- A command word taken apart (R78). -/
def Fields.ofWord (w : CmdWord) : Fields :=
  { op := opField w, a := aField w, b := bField w, h := hField w, c := cField w, z := zField w }

/-- The six fields put together, `op` in the top bits (R78). -/
def Fields.toWord (f : Fields) : CmdWord :=
  (f.op.setWidth 64 <<< 56) ||| (f.a.setWidth 64 <<< 48) ||| (f.b.setWidth 64 <<< 40) |||
    (f.h.setWidth 64 <<< 24) ||| (f.c.setWidth 64 <<< 8) ||| f.z.setWidth 64

/-! ### The opcode map -/

/-- One row of the opcode map: a word is the row's command exactly when `(w & mask) == pattern` (R80). -/
structure Row where
  pattern : CmdWord
  mask : CmdWord
  /-- the command, its operands taken from the word's fields (R81) -/
  build : CmdWord → Instr

/-- The ten rows, in the order of the opcode map (R80). -/
def rows : List Row :=
  [ { pattern := 0x0100000000000000, mask := 0xFFFFFFFFFFFFFFFF, build := fun _ => .crcinit },
    { pattern := 0x0200000000000000, mask := 0xFFFF00FFFFFFFFFF, build := fun w => .crcbyte (bField w) },
    { pattern := 0x0300000000000000, mask := 0xFFFFFFFFFFFFFFFF, build := fun _ => .crc16 },
    { pattern := 0x0400000000000000, mask := 0xFFFFFF0000FFFFFF, build := fun w => .crc16n (hField w) },
    { pattern := 0x1000000000000000, mask := 0xFFFFFFFFFFFFFFFF, build := fun _ => .inclr },
    { pattern := 0x1100000000000000, mask := 0xFFFF00FFFFFFFFFF, build := fun w => .inpush (bField w) },
    { pattern := 0x2000000000000000, mask := 0xFF000000000000FF,
      build := fun w => .encreq (aField w) (bField w) (hField w) (cField w) },
    { pattern := 0x2100000000000000, mask := 0xFF00FF0000FFFFFF,
      build := fun w => .enccmd (aField w) (hField w) },
    { pattern := 0x3000000000000000, mask := 0xFFFFFFFFFFFFFFFF, build := fun _ => .decode },
    { pattern := 0x3100000000000000, mask := 0xFFFFFFFFFFFFFFFF, build := fun _ => .extract } ]

/-- The test of the opcode map (R80). -/
def Row.hits (r : Row) (w : CmdWord) : Bool := w &&& r.mask == r.pattern

/-- Why a word is no command; the machine makes one error of both, ILLEGAL_COMMAND (R83). -/
inductive DecodeError where
  /-- the opcode is none of the ten -/
  | unassignedOp (op : BitVec 8)
  /-- the opcode is one of the ten and a field its format does not use is not zero -/
  | unusedFieldNotZero (op : BitVec 8)
deriving DecidableEq, Repr

/-- "find the row of rule R80 whose `(w & mask) == match`; if there is one, extract the operands by rule R81
…; if there is none, the word is illegal" (R82, R83). -/
def decode (w : CmdWord) : Except DecodeError Instr :=
  match rows.find? (fun r => r.hits w) with
  | some r => .ok (r.build w)
  | none =>
    if rows.any (fun r => opField r.pattern == opField w) then .error (.unusedFieldNotZero (opField w))
    else .error (.unassignedOp (opField w))

/-! ### The encoder -/

/-- The fields of each command's word (R79, R80, R81). -/
def Instr.fields (i : Instr) : Fields :=
  match i with
  | .crcinit => { op := 0x01, a := 0, b := 0, h := 0, c := 0, z := 0 }
  | .crcbyte b => { op := 0x02, a := 0, b := b, h := 0, c := 0, z := 0 }
  | .crc16 => { op := 0x03, a := 0, b := 0, h := 0, c := 0, z := 0 }
  | .crc16n n => { op := 0x04, a := 0, b := 0, h := n, c := 0, z := 0 }
  | .inclr => { op := 0x10, a := 0, b := 0, h := 0, c := 0, z := 0 }
  | .inpush b => { op := 0x11, a := 0, b := b, h := 0, c := 0, z := 0 }
  | .encreq slave fc start count => { op := 0x20, a := slave, b := fc, h := start, c := count, z := 0 }
  | .enccmd slave hlen => { op := 0x21, a := slave, b := 0, h := hlen, c := 0, z := 0 }
  | .decode => { op := 0x30, a := 0, b := 0, h := 0, c := 0, z := 0 }
  | .extract => { op := 0x31, a := 0, b := 0, h := 0, c := 0, z := 0 }

/-- The command word of a command (R78 to R81). -/
def encode (i : Instr) : CmdWord := i.fields.toWord

/-! ### The table's words -/

/-- The instruction read from a word given as a number of at most `nbits` bits, numbered as
spec/opcode_table.json numbers them. A command word is one 64-bit number and has no byte order (R53), so the
number is the word; the bits above `nbits` are zero (log entry 10). -/
def decodeTableWord (nbits w : Nat) : Option Instr :=
  if nbits ≤ 64 ∧ w < 2 ^ nbits then
    match decode (BitVec.ofNat 64 w) with
    | .ok i => some i
    | .error _ => none
  else none

end Sys2Proof
end

