-- ==== Sys2Proof/Config.lean ====
section
/-! DEFINITION. What an implementation fixes and the spec leaves open: the capacity `BUF_CAP` of the
input buffer, and the capacities that follow from it (spec/00_scope.md R7, spec/20_memory.md R50).
DESIGN CHOICE, log entry 3: `BUF_CAP` is a free value in its whole range, never a number. -/

namespace Sys2Proof

/-- How far `BUF_CAP` lies above its least value 8: any number from 0 to 65527. It has no body, so no
proof can use a value of it. -/
opaque Config.bufExtra : Fin 65528

/-- `BUF_CAP`, the capacity of `IN` in bytes: OPEN in the spec, any value from 8 to 65535 (R7). -/
def Config.bufCap : Nat := Config.bufExtra.val + 8

/-- `OUT_CAP` = `BUF_CAP + 3` (R7). -/
def Config.outCap : Nat := Config.bufCap + 3

/-- `FDATA_CAP` = `BUF_CAP - 4` (R7). -/
def Config.fdataCap : Nat := Config.bufCap - 4

/-- `REGS_CAP` = `floor((BUF_CAP - 4) / 2)`, in 16-bit entries (R7). -/
def Config.regsCap : Nat := (Config.bufCap - 4) / 2

end Sys2Proof
end

