-- ==== Sys2Proof/Machine/State.lean ====
section
/-! DEFINITION. The state of the block (spec/10_state.md R20 to R34), what the host may do between commands
(spec/70_reset_and_hazards.md R234, R235), the reasons a step stops, and the state after reset. -/

namespace Sys2Proof.Machine

/-- The result codes of `ERR`. Codes 6 and 7 are never written, and "a model may make `ERR` a six-valued type"
(R191; log entry 12). -/
inductive ErrCode where
  /-- 0: the last command succeeded -/
  | ok
  /-- 1: `DECODE` with fewer than 4 bytes -/
  | malformedFrame
  /-- 2: `ENCCMD` or `CRC16N` with a length that does not fit -/
  | invalidArgument
  /-- 3: the command word is no command -/
  | illegalCommand
  /-- 4: `INPUSH` on a full buffer -/
  | capacity
  /-- 5: `EXTRACT` without a parsed frame -/
  | noFrame
deriving DecidableEq, Repr

/-- The record Frame: "`{ slaveAddress: u8, functionCode: u8, data: bytes, crc: u16, crcValid: bool }`" (R26). -/
structure Frame where
  /-- `F_SLAVE` -/
  slaveAddress : Byte
  /-- `F_FC` -/
  functionCode : Byte
  /-- `F_DATA[0..F_DLEN]`; its length is `F_DLEN` -/
  data : List Byte
  /-- `F_CRC`, the CRC received in the frame -/
  crc : Word
  /-- `F_CRCVALID` -/
  crcValid : Bool
deriving DecidableEq, Repr

/-- The frame registers that hold a value while `F_VALID` = 1: the Frame and the flag `F_EXC` (R26). -/
structure FrameRegs where
  frame : Frame
  /-- `F_EXC`: the frame is an exception response -/
  exc : Bool
deriving DecidableEq, Repr

/-- A place the host may read, by name and index (R33). -/
inductive Loc where
  | crc
  | inLen
  | inByte (i : Nat)
  | outValid
  | outLen
  | outByte (i : Nat)
  | fValid
  | fSlave
  | fFc
  | fDlen
  | fData (i : Nat)
  | fCrc
  | fCrcValid
  | fExc
  | regsValid
  | regsLen
  | regsWord (i : Nat)
  | err
deriving DecidableEq, Repr

/-- What the host may do between commands; nothing else reaches the block (R235). -/
inductive HostAction where
  /-- present a command word: any 64-bit value -/
  | present (w : CmdWord)
  /-- read a register or a buffer element -/
  | read (loc : Loc)
  /-- apply reset, an event that is no command word (R220) -/
  | reset
deriving DecidableEq, Repr

/-- The state. The first six fields are the whole architectural state of R20. A group that may hold no value
(`⊥`) is an optional value, `none` for a valid bit of 0, as R22 allows (log entry 4), and each length register
is the length of its buffer's contents (log entry 5). The last two fields are the model's own and stand for the
host: what it has yet to do, and what its reads have given it (R234; log entries 1 and 8). -/
structure State where
  /-- `CRC` -/
  crc : Word
  /-- `IN[0..IN_LEN]`; its length is `IN_LEN` -/
  input : List Byte
  /-- `OUT[0..OUT_LEN]`; `none` when `OUT_VALID` = 0 -/
  out : Option (List Byte)
  /-- the frame registers; `none` when `F_VALID` = 0 -/
  frame : Option FrameRegs
  /-- `REGS[0..REGS_LEN]`; `none` when `REGS_VALID` = 0 -/
  regs : Option (List Word)
  /-- `ERR` -/
  err : ErrCode
  /-- the host's: its actions still to come, first one first -/
  pending : List HostAction
  /-- the host's: each place it has read and the value it got, oldest first -/
  seen : List (Loc × Nat)
deriving DecidableEq, Repr

/-- The state after reset, each field at the value of the table of R34. No host action is pending and the host
has read nothing. -/
def State.reset : State :=
  { crc := 0xFFFF, input := [], out := none, frame := none, regs := none, err := .ok, pending := [], seen := [] }

/-- The faults of the machine: none. "The block never stops, hangs or refuses further commands because of an
error" (R190); every error is a code in `ERR`. -/
inductive Fault where
deriving DecidableEq, Repr

/-- The refusals of the machine. -/
inductive Refusal where
  /-- Kept for an instruction without a meaning. Raised by no one: every command has its meaning. Safe. -/
  | notModelled (mnemonic : String)
  /-- The host read a place that holds no value: "A host read of `⊥` is *refused*: the model gives it no result
  and marks the run as refused" (R22, R57). Raised by a step at a host read, never by a command. Safe. -/
  | readOfNoValue (loc : Loc)
deriving DecidableEq, Repr

/-- What a step or a command answers. -/
abbrev Result := Host.Outcome State Fault Refusal

end Sys2Proof.Machine
end

