-- ==== Sys2Proof/Machine/Ops.lean ====
section
/-! DEFINITION. The shared operations: splitting and joining 16-bit values (spec/20_memory.md R52, R53), slices
(spec/00_scope.md R9), one update per register group, and how a command ends: with success or with an error
(spec/00_scope.md R11, spec/60_exceptions.md R195). -/

namespace Sys2Proof.Machine

/-! ### Bytes and 16-bit values -/

/-- `hi8(v) = v[15:8]` (R8). -/
def hi8 (v : Word) : Byte := v.extractLsb' 8 8

/-- `lo8(v) = v[7:0]` (R8). -/
def lo8 (v : Word) : Byte := v.extractLsb' 0 8

/-- Two bytes joined little-endian, the low byte first: the CRC field of a frame (R52, R141). -/
def le16 (lo hi : Byte) : Word := lo.setWidth 16 ||| (hi.setWidth 16 <<< 8)

/-- Two bytes joined big-endian, the high byte first: a register value (R52, R162). -/
def be16 (hi lo : Byte) : Word := (hi.setWidth 16 <<< 8) ||| lo.setWidth 16

/-- `s[a..b]`, the half-open slice from index `a` up to and not including `b` (R9). -/
def slice (s : List Byte) (a b : Nat) : List Byte := (s.take b).drop a

/-! ### Writing the register groups -/

/-- `CRC <- v`. -/
def State.setCrc (v : Word) (s : State) : State := { s with crc := v }

/-- `IN[0..len v] <- v` and `IN_LEN <- len v`. -/
def State.setInput (v : List Byte) (s : State) : State := { s with input := v }

/-- The `OUT` group: a frame, with `OUT_VALID` = 1, or no value, with `OUT_VALID` = 0. -/
def State.setOut (v : Option (List Byte)) (s : State) : State := { s with out := v }

/-- The frame group: its registers, with `F_VALID` = 1, or no value, with `F_VALID` = 0. -/
def State.setFrame (v : Option FrameRegs) (s : State) : State := { s with frame := v }

/-- The `REGS` group: the registers, with `REGS_VALID` = 1, or no value, with `REGS_VALID` = 0. -/
def State.setRegs (v : Option (List Word)) (s : State) : State := { s with regs := v }

/-- `ERR <- e`. -/
def State.setErr (e : ErrCode) (s : State) : State := { s with err := e }

/-- The host's actions still to come. -/
def State.setPending (v : List HostAction) (s : State) : State := { s with pending := v }

/-! ### How a command ends -/

/-- The valid bits that a failing command clears: those of its own destination group (R195). -/
inductive DestGroup where
  /-- no valid bit: `CRC16N`, `INPUSH`, an illegal word -/
  | noGroup
  /-- `OUT_VALID`: `ENCCMD` -/
  | outGroup
  /-- `F_VALID` and `REGS_VALID`: `DECODE` -/
  | frameAndRegs
  /-- `REGS_VALID`: `EXTRACT` -/
  | regsGroup
deriving DecidableEq, Repr

/-- Clear the valid bits of a destination group: its contents become `⊥` (R195, R22). -/
def State.invalidate (g : DestGroup) (s : State) : State :=
  match g with
  | .noGroup => s
  | .outGroup => s.setOut none
  | .frameAndRegs => (s.setFrame none).setRegs none
  | .regsGroup => s.setRegs none

/-- A command that fails: the one shared operation, the block's analogue of taking an exception. It "writes
`ERR` with the code", clears the valid bits of the command's destination group, and "writes nothing else"; nothing
is saved, no mode changes and control goes nowhere (R11, R195). There is no return from it (R196). -/
def raise (e : ErrCode) (g : DestGroup) (s : State) : Result := .next ((s.invalidate g).setErr e)

/-- A command that succeeds "writes `ERR <- 0` (OK) as its last act" (R11). -/
def finish (s : State) : Result := .next (s.setErr .ok)

/-- A word that is no command "writes `ERR <- 3` (ILLEGAL_COMMAND) and changes nothing else" (R83). -/
def raiseIllegal (s : State) : Result := raise .illegalCommand .noGroup s

end Sys2Proof.Machine
end

