-- ==== Sys2Proof/Machine/Operands.lean ====
section
/-! DEFINITION. The operand forms that come from the input buffer: its whole span, a prefix of it, and what
follows a prefix (spec/20_memory.md R51; spec/40_crc.md R106, R107; spec/41_frame_encode.md R124). The scalar
operands are fields of the command word and are taken out by the decoder (spec/30_encoding.md R81). -/

namespace Sys2Proof.Machine

/-- `IN_LEN` (R20). -/
abbrev State.inLen (s : State) : Nat := s.input.length

/-- `IN[0..IN_LEN]`, the operand of `CRC16` and `DECODE` (R106, R142). -/
abbrev State.inSpan (s : State) : List Byte := s.input

/-- `IN[0..n]`, for `n <= IN_LEN`: the operand of `CRC16N` and the header of `ENCCMD` (R107, R124). -/
def State.inPrefix (n : Nat) (s : State) : List Byte := slice s.input 0 n

/-- `IN[n..IN_LEN]`, for `n <= IN_LEN`: the payload of `ENCCMD` (R124). -/
def State.inRest (n : Nat) (s : State) : List Byte := slice s.input n s.inLen

end Sys2Proof.Machine
end

