-- ==== Sys2Proof/Machine/Buffer.lean ====
section
/-! DEFINITION. The buffer commands INCLR and INPUSH (spec/44_buffer_commands.md R180, R181). -/

namespace Sys2Proof.Machine

/-- `INCLR`: `IN_LEN <- 0`, so every `IN[i]` holds `⊥` (R180). -/
def execInclr (s : State) : Result := finish (s.setInput [])

/-- `INPUSH b`: the byte is written at index `IN_LEN`; CAPACITY when `IN` is full (R181). -/
def execInpush (b : Byte) (s : State) : Result :=
  if s.inLen = Config.bufCap then raise .capacity .noGroup s
  else finish (s.setInput (s.input ++ [b]))

end Sys2Proof.Machine
end

