-- ==== Sys2Proof/Machine/Extract.lean ====
section
/-! DEFINITION. The Register Extractor: the pure function `extractRegisters` and the command EXTRACT
(spec/43_register_extract.md R160 to R168). -/

namespace Sys2Proof.Machine

/-- The offset heuristic: 1 when the first byte, as a number, equals the number of bytes that follow it, else 0;
the comparison is between natural numbers (R161). -/
def prefixOffset (data : List Byte) : Nat :=
  match data with
  | [] => 0
  | b :: rest => if b.toNat = rest.length then 1 else 0

/-- Bytes taken two at a time, the high half first; an odd last byte is in no pair and is dropped (R162). -/
def bePairs : List Byte → List Word
  | hi :: lo :: rest => be16 hi lo :: bePairs rest
  | _ => []

/-- The register set of a frame's data: empty for fewer than 2 bytes, before anything else is looked at (R160). -/
def extractRegisters (data : List Byte) : List Word :=
  if data.length < 2 then [] else bePairs (data.drop (prefixOffset data))

/-- `EXTRACT`: the registers of the parsed frame's data, whatever its flags and function code; NO_FRAME, and
`REGS_VALID` cleared, when no frame is parsed (R163, R164, R165). -/
def execExtract (s : State) : Result :=
  match s.frame with
  | none => raise .noFrame .regsGroup s
  | some f => finish (s.setRegs (some (extractRegisters f.frame.data)))

end Sys2Proof.Machine
end

