-- ==== Sys2Proof/Machine/Crc.lean ====
section
/-! DEFINITION. The CRC Engine: the pure functions and the commands CRCINIT, CRCBYTE, CRC16 and CRC16N
(spec/40_crc.md R100 to R107). -/

namespace Sys2Proof.Machine

/-! ### Pure functions -/

/-- `CRC_POLY`, the reflected polynomial (R7). -/
def crcPoly : Word := 0xA001

/-- `CRC_INIT`, the initial value (R7). -/
def crcInit : Word := 0xFFFF

/-- One bit step: shift right by one and, if the bit shifted out was 1, exclusive-or the polynomial (R100). -/
def crcBit (c : Word) : Word := if c.getLsbD 0 then (c >>> 1) ^^^ crcPoly else c >>> 1

/-- `n` bit steps, one after another. -/
def crcBits : Nat → Word → Word
  | 0, c => c
  | n + 1, c => crcBits n (crcBit c)

/-- One byte step: the byte is folded into bits 7:0, then exactly eight bit steps (R101). -/
def crcByte (c : Word) (b : Byte) : Word := crcBits 8 (c ^^^ b.setWidth 16)

/-- The checksum of a byte string: from the initial value, one byte step per byte, index 0 first, and no final
exclusive-or (R102). -/
def crc16 (s : List Byte) : Word := s.foldl crcByte crcInit

/-! ### Commands -/

/-- `CRCINIT` (R104). -/
def execCrcinit (s : State) : Result := finish (s.setCrc crcInit)

/-- `CRCBYTE b` (R105). -/
def execCrcbyte (b : Byte) (s : State) : Result := finish (s.setCrc (crcByte s.crc b))

/-- `CRC16`: the span is the whole of `IN` (R106). -/
def execCrc16 (s : State) : Result := finish (s.setCrc (crc16 s.inSpan))

/-- `CRC16N n`: the span is the first `n` bytes of `IN`; INVALID_ARGUMENT when there are fewer (R107). -/
def execCrc16n (n : Word) (s : State) : Result :=
  if s.inLen < n.toNat then raise .invalidArgument .noGroup s
  else finish (s.setCrc (crc16 (s.inPrefix n.toNat)))

end Sys2Proof.Machine
end

