-- ==== Sys2Proof/Machine/Flags.lean ====
section
/-! DEFINITION. The five flags of the block, how the two computed ones are found, and the numbers of the error
codes (spec/10_state.md R30; spec/60_exceptions.md R191). -/

namespace Sys2Proof.Machine

/-- `OUT_VALID` (R30). -/
def State.outValid (s : State) : Bool := s.out.isSome

/-- `F_VALID` (R30). -/
def State.fValid (s : State) : Bool := s.frame.isSome

/-- `REGS_VALID` (R30). -/
def State.regsValid (s : State) : Bool := s.regs.isSome

/-- `F_EXC`: "the frame is an exception response if and only if `raw[1] >= 0x80`", bit 7 of the function code
(R30, R74, R146). -/
def excFlag (fc : Byte) : Bool := fc.getLsbD 7

/-- `F_CRCVALID`: the received CRC equals the computed one (R30, R141). -/
def crcMatches (received computed : Word) : Bool := received == computed

/-- The 3-bit number of a result code (R191). -/
def ErrCode.code (e : ErrCode) : BitVec 3 :=
  match e with
  | .ok => 0
  | .malformedFrame => 1
  | .invalidArgument => 2
  | .illegalCommand => 3
  | .capacity => 4
  | .noFrame => 5

end Sys2Proof.Machine
end

