-- ==== Sys2Proof/Machine/FrameDecode.lean ====
section
/-! DEFINITION. The Frame Codec, parsing: the pure function `decodeFrame` and the command DECODE
(spec/42_frame_decode.md R140 to R148; spec/30_encoding.md R73, R74). -/

namespace Sys2Proof.Machine

/-- The Frame of a byte string, or malformed-frame for fewer than 4 bytes; a wrong CRC is a flag and no failure
(R140, R141, R144). -/
def decodeFrame (raw : List Byte) : Except ErrCode Frame :=
  if h : raw.length < 4 then .error .malformedFrame
  else .ok
    { slaveAddress := raw[0]'(by omega)
      functionCode := raw[1]'(by omega)
      data := slice raw 2 (raw.length - 2)
      crc := le16 (raw[raw.length - 2]'(by omega)) (raw[raw.length - 1]'(by omega))
      crcValid := crcMatches (le16 (raw[raw.length - 2]'(by omega)) (raw[raw.length - 1]'(by omega)))
        (crc16 (slice raw 0 (raw.length - 2))) }

/-- `DECODE`: the whole of `IN` is parsed into the frame group, `REGS_VALID` is cleared whether it succeeds or
fails, and a success leaves the computed CRC in `CRC` (R142). -/
def execDecode (s : State) : Result :=
  match decodeFrame s.inSpan with
  | .error e => raise e .frameAndRegs s
  | .ok f =>
    finish (((s.setRegs none).setFrame (some { frame := f, exc := excFlag f.functionCode })).setCrc
      (crc16 (s.inPrefix (s.inLen - 2))))

end Sys2Proof.Machine
end

