-- ==== Sys2Proof/Machine/FrameEncode.lean ====
section
/-! DEFINITION. The Frame Codec, building: the pure functions `encodeRequest` and `encodeCommand` and the commands
ENCREQ and ENCCMD (spec/41_frame_encode.md R120 to R127; spec/30_encoding.md R70 to R72). -/

namespace Sys2Proof.Machine

/-- A wire frame from the bytes before its CRC field: the CRC over them is appended low byte first (R52, R70). -/
def sealFrame (h : List Byte) : List Byte := h ++ [lo8 (crc16 h), hi8 (crc16 h)]

/-- The CRC a built frame was sealed with: `crc16` of all but its last two bytes (R120, R124). -/
def sealedCrc (f : List Byte) : Word := crc16 (slice f 0 (f.length - 2))

/-- The 8-byte request frame; start and count stand high byte first (R120, R71). -/
def encodeRequest (slave fc : Byte) (start count : Word) : List Byte :=
  sealFrame [slave, fc, hi8 start, lo8 start, hi8 count, lo8 count]

/-- The command frame; it "fails if `header` is empty" (R123, R72). -/
def encodeCommand (slave : Byte) (header payload : List Byte) : Except ErrCode (List Byte) :=
  if header.length = 0 then .error .invalidArgument
  else .ok (sealFrame (slave :: (header ++ payload)))

/-- `ENCREQ slave, fc, start, count`: it checks nothing and cannot fail (R120, R121). -/
def execEncreq (slave fc : Byte) (start count : Word) (s : State) : Result :=
  let f := encodeRequest slave fc start count
  finish ((s.setOut (some f)).setCrc (sealedCrc f))

/-- `ENCCMD slave, hlen`: the first `hlen` bytes of `IN` are the header and the rest the payload;
INVALID_ARGUMENT, and `OUT_VALID` cleared, when the header is empty or longer than `IN` (R124). It checks no
control value (R127). -/
def execEnccmd (slave : Byte) (hlen : Word) (s : State) : Result :=
  if hlen.toNat = 0 ∨ s.inLen < hlen.toNat then raise .invalidArgument .outGroup s
  else
    match encodeCommand slave (s.inPrefix hlen.toNat) (s.inRest hlen.toNat) with
    | .ok f => finish ((s.setOut (some f)).setCrc (sealedCrc f))
    | .error e => raise e .outGroup s

end Sys2Proof.Machine
end

