-- ==== Sys2Proof/Machine/Dispatch.lean ====
section
/-! DEFINITION. Each command's meaning: one arm per constructor of `Instr` (spec/30_encoding.md R80). -/

namespace Sys2Proof.Machine

def exec (i : Instr) (s : State) : Host.Outcome State Fault Refusal :=
  match i with
  | .crcinit => Sys2Proof.Machine.execCrcinit s
  | .crcbyte b => Sys2Proof.Machine.execCrcbyte b s
  | .crc16 => Sys2Proof.Machine.execCrc16 s
  | .crc16n n => Sys2Proof.Machine.execCrc16n n s
  | .inclr => Sys2Proof.Machine.execInclr s
  | .inpush b => Sys2Proof.Machine.execInpush b s
  | .encreq slave fc start count => Sys2Proof.Machine.execEncreq slave fc start count s
  | .enccmd slave hlen => Sys2Proof.Machine.execEnccmd slave hlen s
  | .decode => Sys2Proof.Machine.execDecode s
  | .extract => Sys2Proof.Machine.execExtract s

end Sys2Proof.Machine
end

