-- ==== Sys2Proof/Machine/HostPort.lean ====
section
/-! DEFINITION. What the host does between commands: reading state by name and index, and reset
(spec/10_state.md R22, R33; spec/20_memory.md R57; spec/70_reset_and_hazards.md R220, R235). -/

namespace Sys2Proof.Machine

/-- The value the host reads at a place, as an unsigned number, or `none` for a place that holds no value `⊥`:
an index at or above the length, or any place of a group whose valid bit is 0 (R22, R33, R57). -/
def hostRead (loc : Loc) (s : State) : Option Nat :=
  match loc with
  | .crc => some s.crc.toNat
  | .inLen => some s.inLen
  | .inByte i => s.input[i]?.map BitVec.toNat
  | .outValid => some s.outValid.toNat
  | .outLen => s.out.map List.length
  | .outByte i => s.out.bind fun f => f[i]?.map BitVec.toNat
  | .fValid => some s.fValid.toNat
  | .fSlave => s.frame.map fun g => g.frame.slaveAddress.toNat
  | .fFc => s.frame.map fun g => g.frame.functionCode.toNat
  | .fDlen => s.frame.map fun g => g.frame.data.length
  | .fData i => s.frame.bind fun g => g.frame.data[i]?.map BitVec.toNat
  | .fCrc => s.frame.map fun g => g.frame.crc.toNat
  | .fCrcValid => s.frame.map fun g => g.frame.crcValid.toNat
  | .fExc => s.frame.map fun g => g.exc.toNat
  | .regsValid => some s.regsValid.toNat
  | .regsLen => s.regs.map List.length
  | .regsWord i => s.regs.bind fun r => r[i]?.map BitVec.toNat
  | .err => some s.err.code.toNat

/-- A host read: the host gets the value and the block's state is unchanged, or the read of `⊥` is refused
(R22, R33). -/
def hostReadStep (loc : Loc) (s : State) : Result :=
  match hostRead loc s with
  | some v => .next { s with seen := s.seen ++ [(loc, v)] }
  | none => .refused (.readOfNoValue loc)

/-- The reset event: every piece of the block's state takes its reset value and nothing survives (R220, R221); what
the host has yet to do and has read is the host's and stays. -/
def resetEvent (s : State) : State := { State.reset with pending := s.pending, seen := s.seen }

/-- The host presents a command word before its other actions. -/
def State.present (w : CmdWord) (s : State) : State := s.setPending (.present w :: s.pending)

end Sys2Proof.Machine
end

