-- ==== Sys2Proof/Machine/Step.lean ====
section
/-! DEFINITION. One step of the machine: the host's next action, a command word performed as one atomic step, a
read or reset (spec/00_scope.md R6; spec/20_memory.md R61; spec/70_reset_and_hazards.md R234, R235). -/

namespace Sys2Proof.Machine

/-- A presented command word: decoding comes first, and an illegal word is examined no further (R82, R83, R197). -/
def presentWord (w : CmdWord) (s : State) : Host.Outcome State Fault Refusal :=
  match decode w with
  | .ok i => exec i s
  | .error _ => raiseIllegal s

/-- One step. With no action of the host pending "nothing changes between commands" (R61; DESIGN CHOICE, log
entry 2). -/
def step (s : State) : Host.Outcome State Fault Refusal :=
  match s.pending with
  | [] => .next s
  | .present w :: rest => presentWord w (s.setPending rest)
  | .read loc :: rest => hostReadStep loc (s.setPending rest)
  | .reset :: rest => .next (resetEvent (s.setPending rest))

/-- The state with a command word, given as a number, as what the host presents next (log entries 1 and 10). -/
def State.withFetchWord (s : State) (nbits w : Nat) : State := s.present (BitVec.ofNat 64 (w % 2 ^ nbits))

end Sys2Proof.Machine
end

