-- ==== Sys2Proof/Machine/Program.lean ====
section
/-! DEFINITION. What the host presents for the pseudo-instructions and for the function calls of the source
(spec/30_encoding.md R85, R86). Each is a list of real commands, one command word each. -/

namespace Sys2Proof.Machine

/-- `INLOAD b0 b1 ...`: `INCLR`, then one `INPUSH` per byte (R86). -/
def inload (bs : List Byte) : List Instr := .inclr :: bs.map .inpush

/-- `CRCSTREAM b0 b1 ...`: `CRCINIT`, then one `CRCBYTE` per byte (R86). -/
def crcStream (bs : List Byte) : List Instr := .crcinit :: bs.map .crcbyte

/-- `crc16(bytes)` (R85). -/
def callCrc16 (bs : List Byte) : List Instr := inload bs ++ [.crc16]

/-- `crc16(bytes, length)` (R85). -/
def callCrc16n (bs : List Byte) (n : Word) : List Instr := inload bs ++ [.crc16n n]

/-- `encodeRequest(s, f, r, k)` (R85). -/
def callEncodeRequest (slave fc : Byte) (start count : Word) : List Instr := [.encreq slave fc start count]

/-- `encodeCommand(s, header, payload)`: the operand `hlen` is the header's length (R85). -/
def callEncodeCommand (slave : Byte) (header payload : List Byte) : List Instr :=
  inload (header ++ payload) ++ [.enccmd slave (BitVec.ofNat 16 header.length)]

/-- `decodeFrame(raw)` (R85). -/
def callDecodeFrame (raw : List Byte) : List Instr := inload raw ++ [.decode]

/-- `extractRegisters(frame)`, "`EXTRACT` after the `DECODE` that produced the frame" (R85). -/
def callExtractRegisters (raw : List Byte) : List Instr := callDecodeFrame raw ++ [.extract]

/-- The host presents the words of these commands, in order, and has nothing else to do (R234). -/
def State.presentAll (is : List Instr) (s : State) : State :=
  s.setPending (is.map fun i => .present (encode i))

end Sys2Proof.Machine
end

