-- ==== Sys2Proof/Safety.lean ====
section
/-! DEFINITION. The terms claims use: the capacities of the buffers, the invariants of the frame group, the
`REGS` group and the `OUT` group (spec/10_state.md R25, R27, R28; spec/20_memory.md R50), the widths of the places
the host reads (R20), and which command may write which group (R32). -/

namespace Sys2Proof.Machine

/-! ### Invariants -/

/-- The form of the four buffers: no buffer holds more elements than its capacity (R50). A buffer is the list of
its elements below its length register, so two buffers with the same contents are the same data. -/
abbrev Memory.wf (s : State) : Prop :=
  s.input.length ≤ Config.bufCap ∧
  (∀ f ∈ s.out, f.length ≤ Config.outCap) ∧
  (∀ g ∈ s.frame, g.frame.data.length ≤ Config.fdataCap) ∧
  (∀ r ∈ s.regs, r.length ≤ Config.regsCap)

/-- The frame invariant: `F_CRCVALID` = 1 if and only if the CRC over slave, function code and data equals
`F_CRC`; `F_EXC` = `F_FC[7]` (R27). -/
abbrev FrameOk (s : State) : Prop :=
  ∀ g ∈ s.frame,
    (g.frame.crcValid = true ↔
      crc16 (g.frame.slaveAddress :: g.frame.functionCode :: g.frame.data) = g.frame.crc) ∧
    g.exc = g.frame.functionCode.getLsbD 7

/-- The register-set invariant: valid registers are those of the current Frame, and there is one (R28). -/
abbrev RegsOk (s : State) : Prop :=
  ∀ r ∈ s.regs, ∃ g ∈ s.frame, r = extractRegisters g.frame.data

/-- The invariant of the block (R27, R28, R50). -/
abbrev State.Inv (s : State) : Prop := Memory.wf s ∧ FrameOk s ∧ RegsOk s

/-- A valid `OUT` is a built wire frame: at least a slave address and a function code, then their CRC, low byte
first (R25, R70). -/
abbrev OutOk (s : State) : Prop :=
  ∀ f ∈ s.out, 4 ≤ f.length ∧
    f = f.take (f.length - 2) ++ [lo8 (crc16 (f.take (f.length - 2))), hi8 (crc16 (f.take (f.length - 2)))]

/-! ### What the host reads -/

/-- The width in bits of each place the host reads (R20). -/
def Loc.width (loc : Loc) : Nat :=
  match loc with
  | .crc => 16
  | .inLen => 16
  | .inByte _ => 8
  | .outValid => 1
  | .outLen => 17
  | .outByte _ => 8
  | .fValid => 1
  | .fSlave => 8
  | .fFc => 8
  | .fDlen => 16
  | .fData _ => 8
  | .fCrc => 16
  | .fCrcValid => 1
  | .fExc => 1
  | .regsValid => 1
  | .regsLen => 16
  | .regsWord _ => 16
  | .err => 3

/-! ### Which command writes what -/

/-- The columns of the table of R32. -/
inductive Group where
  | crc
  | input
  | out
  | frame
  | regs
  | err
deriving DecidableEq, Repr

/-- The group a place belongs to (R20, R32). -/
def Loc.group (loc : Loc) : Group :=
  match loc with
  | .crc => .crc
  | .inLen => .input
  | .inByte _ => .input
  | .outValid => .out
  | .outLen => .out
  | .outByte _ => .out
  | .fValid => .frame
  | .fSlave => .frame
  | .fFc => .frame
  | .fDlen => .frame
  | .fData _ => .frame
  | .fCrc => .frame
  | .fCrcValid => .frame
  | .fExc => .frame
  | .regsValid => .regs
  | .regsLen => .regs
  | .regsWord _ => .regs
  | .err => .err

/-- The groups a command writes when it succeeds: the marks "w" of the table of R32, and `ERR`, which every row
writes. -/
def successWrites (i : Instr) : List Group :=
  match i with
  | .crcinit => [.crc, .err]
  | .crcbyte _ => [.crc, .err]
  | .crc16 => [.crc, .err]
  | .crc16n _ => [.crc, .err]
  | .inclr => [.input, .err]
  | .inpush _ => [.input, .err]
  | .encreq _ _ _ _ => [.crc, .out, .err]
  | .enccmd _ _ => [.crc, .out, .err]
  | .decode => [.crc, .frame, .regs, .err]
  | .extract => [.regs, .err]

/-- The groups a command writes when it fails: the marks "f" of the table of R32, and `ERR`. -/
def failWrites (i : Instr) : List Group :=
  match i with
  | .enccmd _ _ => [.out, .err]
  | .decode => [.frame, .regs, .err]
  | .extract => [.regs, .err]
  | .crcinit => [.err]
  | .crcbyte _ => [.err]
  | .crc16 => [.err]
  | .crc16n _ => [.err]
  | .inclr => [.err]
  | .inpush _ => [.err]
  | .encreq _ _ _ _ => [.err]

end Sys2Proof.Machine
end

