-- ==== Sys2Proof/WellFormed.lean ====
section
/-! DEFINITION. When the fields of a command word are those of a command: the opcode is one of the ten and
every field its format does not use is zero (spec/30_encoding.md R78, R79, R83). An `Instr` needs no check of
its own: "Every value a field can hold is a legal operand value for the decoder" (R81), and the types of its
operands hold just those values. -/

namespace Sys2Proof

/-- The format of each assigned opcode; no format for an opcode that names no command (R79, R80). -/
def formatOf (op : BitVec 8) : Option Format :=
  match op.toNat with
  | 0x01 => some .N
  | 0x02 => some .B
  | 0x03 => some .N
  | 0x04 => some .L
  | 0x10 => some .N
  | 0x11 => some .B
  | 0x20 => some .R
  | 0x21 => some .S
  | 0x30 => some .N
  | 0x31 => some .N
  | _ => none

/-- "A field a format does not use must be zero" (R78): the zero columns of the table of R79. -/
def Format.fits (k : Format) (f : Fields) : Bool :=
  match k with
  | .N => f.a == 0 && f.b == 0 && f.h == 0 && f.c == 0 && f.z == 0
  | .B => f.a == 0 && f.h == 0 && f.c == 0 && f.z == 0
  | .L => f.a == 0 && f.b == 0 && f.c == 0 && f.z == 0
  | .S => f.b == 0 && f.c == 0 && f.z == 0
  | .R => f.z == 0

/-- The fields are those of a legal command word: the opposite of the illegal words of R83. -/
def Fields.wellFormed (f : Fields) : Bool :=
  match formatOf f.op with
  | some k => k.fits f
  | none => false

end Sys2Proof
end

