-- ==== Sys2Proof/Certificates/Slice0/Obligations.lean ====
section
/-! DEFINITION. The statements for the provers, each from the numbered rules of spec/. -/

open Sys2Proof Sys2Proof.Machine

/-! ### Encodings (spec/30_encoding.md) -/

/-- Decoding the word of a command gives the command back, for every value of every operand. -/
def Obligations.DecodeOfEncodeIsTheCommand : Prop :=
  ∀ i : Instr, decode (encode i) = .ok i

/-- A word that decodes is the very word of its command: no bit of it is ignored. -/
def Obligations.DecodableWordIsItsEncoding : Prop :=
  ∀ (w : CmdWord) (i : Instr), decode w = .ok i → encode i = w

/-- R80 and R81: each row's mask and match decide whether a word is the row's command, and its operands are the
bits the row names. -/
def Obligations.OpcodeMapDecidesDecoding : Prop :=
  ∀ w : CmdWord,
    (w &&& 0xFFFFFFFFFFFFFFFF = 0x0100000000000000 ↔ decode w = .ok .crcinit) ∧
    (w &&& 0xFFFF00FFFFFFFFFF = 0x0200000000000000 ↔ decode w = .ok (.crcbyte (w.extractLsb' 40 8))) ∧
    (w &&& 0xFFFFFFFFFFFFFFFF = 0x0300000000000000 ↔ decode w = .ok .crc16) ∧
    (w &&& 0xFFFFFF0000FFFFFF = 0x0400000000000000 ↔ decode w = .ok (.crc16n (w.extractLsb' 24 16))) ∧
    (w &&& 0xFFFFFFFFFFFFFFFF = 0x1000000000000000 ↔ decode w = .ok .inclr) ∧
    (w &&& 0xFFFF00FFFFFFFFFF = 0x1100000000000000 ↔ decode w = .ok (.inpush (w.extractLsb' 40 8))) ∧
    (w &&& 0xFF000000000000FF = 0x2000000000000000 ↔
      decode w = .ok (.encreq (w.extractLsb' 48 8) (w.extractLsb' 40 8) (w.extractLsb' 24 16) (w.extractLsb' 8 16))) ∧
    (w &&& 0xFF00FF0000FFFFFF = 0x2100000000000000 ↔
      decode w = .ok (.enccmd (w.extractLsb' 48 8) (w.extractLsb' 24 16))) ∧
    (w &&& 0xFFFFFFFFFFFFFFFF = 0x3000000000000000 ↔ decode w = .ok .decode) ∧
    (w &&& 0xFFFFFFFFFFFFFFFF = 0x3100000000000000 ↔ decode w = .ok .extract)

/-- The words that decode are those whose opcode is assigned and whose unused fields are zero: the match and mask
view (R80) and the format view (R78, R79, R83) agree on all 2^64 words. -/
def Obligations.DecodableWordsAreTheWellFormedOnes : Prop :=
  ∀ w : CmdWord, (∃ i, decode w = .ok i) ↔ (Fields.ofWord w).wellFormed = true

/-- R83: a word whose opcode is none of the ten, or with a nonzero bit in a field its format marks "0", when it is
presented, writes ILLEGAL_COMMAND to `ERR` and changes nothing else of the block. That the word also leaves the host's
list is the model's own (log entry 1). -/
def Obligations.IllegalWordOnlySetsErr : Prop :=
  ∀ (s : State) (w : CmdWord) (rest : List HostAction),
    s.pending = .present w :: rest → (Fields.ofWord w).wellFormed = false →
      step s = .next { s with pending := rest, err := .illegalCommand }

/-- When the word the host presents decodes to a command, the step is that command's meaning on the state in which
the word has been taken from the host's list (the model's own field, log entry 1). -/
def Obligations.StepRunsTheDecodedCommand : Prop :=
  ∀ (s : State) (w : CmdWord) (rest : List HostAction) (i : Instr),
    s.pending = .present w :: rest → decode w = .ok i → step s = exec i { s with pending := rest }

/-- Words written out in spec/95_test_vectors.md decode as it says. -/
def Obligations.WordsOfTheSpecDecodeAsItSays : Prop :=
  decode 0x0100000000000000 = .ok .crcinit ∧
  decode 0x0200010000000000 = .ok (.crcbyte 0x01) ∧
  decode 0x040000FFFF000000 = .ok (.crc16n 65535) ∧
  decode 0x1100400000000000 = .ok (.inpush 0x40) ∧
  decode 0x2001831234ABCD00 = .ok (.encreq 0x01 0x83 0x1234 0xABCD) ∧
  decode 0x2107000003000000 = .ok (.enccmd 0x07 3) ∧
  decode 0x3000000000000000 = .ok .decode ∧
  decode 0x3100000000000000 = .ok .extract ∧
  decode 0xB100000000000000 = .error (.unassignedOp 0xB1) ∧
  decode 0x2101070003000000 = .error (.unusedFieldNotZero 0x21)

/-! ### The CRC Engine (spec/40_crc.md) -/

/-- R100, bit by bit: a right shift, and bits 15, 13 and 0 changed when the bit shifted out is 1. -/
def Obligations.CrcBitShiftsRightWithFeedback : Prop :=
  (∀ c : Word, c.getLsbD 0 = true →
    (crcBit c).getLsbD 15 = true ∧ (crcBit c).getLsbD 13 = !c.getLsbD 14 ∧ (crcBit c).getLsbD 0 = !c.getLsbD 1 ∧
    ∀ i, i < 15 → i ≠ 13 → i ≠ 0 → (crcBit c).getLsbD i = c.getLsbD (i + 1)) ∧
  (∀ c : Word, c.getLsbD 0 = false →
    (crcBit c).getLsbD 15 = false ∧ ∀ i, i < 15 → (crcBit c).getLsbD i = c.getLsbD (i + 1)) ∧
  crcBit 0x0000 = 0x0000 ∧ crcBit 0x0001 = 0xA001 ∧ crcBit 0x0002 = 0x0001 ∧ crcBit 0x8000 = 0x4000 ∧
  crcBit 0xFFFF = 0xDFFE ∧ crcBit 0xFFFE = 0x7FFF ∧ crcBit 0xA001 = 0xF001

/-- R109: the bit step is linear over exclusive-or, and the byte step equals the loop that feeds one bit of the byte
per step, bit 0 first. -/
def Obligations.CrcByteEqualsBitSerialLoop : Prop :=
  (∀ x y : Word, crcBit (x ^^^ y) = crcBit x ^^^ crcBit y) ∧
  ∀ (c : Word) (b : Byte),
    crcByte c b =
      (List.range 8).foldl (fun r i => crcBit (r ^^^ (BitVec.ofBool (b.getLsbD i)).setWidth 16)) c

/-- R113: the byte step by one table lookup, with `T[k] = crc_byte(0x0000, k)`, and the table's first two entries. -/
def Obligations.CrcByteEqualsTableLookup : Prop :=
  (∀ (c : Word) (b : Byte),
    crcByte c b = (c >>> 8) ^^^ crcByte 0x0000 ((c ^^^ b.setWidth 16).extractLsb' 0 8)) ∧
  crcByte 0x0000 0x00 = 0x0000 ∧ crcByte 0x0000 0x01 = 0xC0C1

/-- R110: inverting any single bit of any byte string changes its checksum. -/
def Obligations.SingleBitFlipChangesTheCrc : Prop :=
  ∀ (s : List Byte) (i k : Nat) (hi : i < s.length), k < 8 →
    crc16 (s.set i (s[i] ^^^ (1#8 <<< k))) ≠ crc16 s

/-- R112 and its converse: a byte string followed by two bytes has checksum zero exactly when the two bytes are its
own checksum, low byte first; so a parsed frame's CRC is right exactly when the checksum of the whole frame is zero. -/
def Obligations.ZeroResidueExactlyForTheRightCrc : Prop :=
  (∀ (s : List Byte) (x y : Byte),
    crc16 (s ++ [x, y]) = 0x0000 ↔ x = lo8 (crc16 s) ∧ y = hi8 (crc16 s)) ∧
  ∀ (raw : List Byte) (f : Frame), decodeFrame raw = .ok f → (f.crcValid = true ↔ crc16 raw = 0x0000)

/-- R104: the word of `CRCINIT`, and its whole effect, from every state. -/
def Obligations.CrcinitLoadsTheInitialValue : Prop :=
  decode 0x0100000000000000 = .ok .crcinit ∧
  ∀ s : State, exec .crcinit s = .next { s with crc := 0xFFFF, err := .ok }

/-- R105: the word of `CRCBYTE b` for every `b`, and its whole effect: one byte step from whatever `CRC` holds. -/
def Obligations.CrcbyteTakesOneByteStep : Prop :=
  ∀ b : Byte,
    decode (0x0200000000000000 ||| (b.setWidth 64 <<< 40)) = .ok (.crcbyte b) ∧
    ∀ s : State, exec (.crcbyte b) s = .next { s with crc := crcByte s.crc b, err := .ok }

/-- R106: the word of `CRC16`, and its whole effect: the checksum of all of `IN`, 0xFFFF for an empty `IN`, whatever
`CRC` held. -/
def Obligations.Crc16ChecksumsTheWholeInput : Prop :=
  decode 0x0300000000000000 = .ok .crc16 ∧
  ∀ s : State, exec .crc16 s = .next { s with crc := s.input.foldl crcByte 0xFFFF, err := .ok } ∧
    (s.input = [] → exec .crc16 s = .next { s with crc := 0xFFFF, err := .ok })

/-- R107: the word of `CRC16N n` for every `n`; the checksum of the first `n` bytes of `IN`, or INVALID_ARGUMENT and
nothing else when there are fewer; `n` = 0 gives 0xFFFF and `n` = `IN_LEN` is `CRC16`. -/
def Obligations.Crc16nChecksumsAPrefix : Prop :=
  ∀ n : Word,
    decode (0x0400000000000000 ||| (n.setWidth 64 <<< 24)) = .ok (.crc16n n) ∧
    ∀ s : State,
      (n.toNat ≤ s.input.length →
        exec (.crc16n n) s = .next { s with crc := crc16 (s.input.take n.toNat), err := .ok }) ∧
      (s.input.length < n.toNat → exec (.crc16n n) s = .next { s with err := .invalidArgument }) ∧
      (n = 0 → exec (.crc16n n) s = .next { s with crc := 0xFFFF, err := .ok }) ∧
      (n.toNat = s.input.length → exec (.crc16n n) s = exec .crc16 s)

/-- R108, over runs of the model's own host list (log entry 1). (a) `CRCINIT` and one `CRCBYTE` per byte leave the checksum of the bytes; (b) `CRC16` and
one `CRCBYTE` per byte of `t` leave the checksum of `IN` followed by `t`. -/
def Obligations.StreamedCrcEqualsBlockCrc : Prop :=
  ∀ (s : State) (t : List Byte),
    core.run (t.length + 1) (s.presentAll (crcStream t)) = .next { s with crc := crc16 t, err := .ok, pending := [] } ∧
    core.run (t.length + 1) (s.presentAll (.crc16 :: t.map .crcbyte)) =
      .next { s with crc := crc16 (s.input ++ t), err := .ok, pending := [] }

/-! ### The buffer commands (spec/44_buffer_commands.md) -/

/-- R180: the word of `INCLR`, and its whole effect. -/
def Obligations.InclrEmptiesTheInput : Prop :=
  decode 0x1000000000000000 = .ok .inclr ∧
  ∀ s : State, exec .inclr s = .next { s with input := [], err := .ok }

/-- R181: the word of `INPUSH b` for every `b`; the byte is appended, or CAPACITY and nothing else when `IN` is full. -/
def Obligations.InpushAppendsUnlessFull : Prop :=
  ∀ b : Byte,
    decode (0x1100000000000000 ||| (b.setWidth 64 <<< 40)) = .ok (.inpush b) ∧
    ∀ s : State,
      (s.input.length < Config.bufCap →
        exec (.inpush b) s = .next { s with input := s.input ++ [b], err := .ok }) ∧
      (s.input.length = Config.bufCap → exec (.inpush b) s = .next { s with err := .capacity })

/-- The store of `INPUSH`: below the capacity the byte is read back at the index `IN_LEN` had, every other byte of
`IN` reads as before, and so does every other place of the block but `IN_LEN` and `ERR`. -/
def Obligations.InpushStoresOneByteAtInLen : Prop :=
  ∀ (b : Byte) (s : State), s.input.length < Config.bufCap →
    ∃ t, exec (.inpush b) s = .next t ∧
      hostRead (.inByte s.inLen) t = some b.toNat ∧
      hostRead .inLen t = some (s.inLen + 1) ∧
      (∀ j, j ≠ s.inLen → hostRead (.inByte j) t = hostRead (.inByte j) s) ∧
      ∀ loc, loc.group ≠ .input → loc.group ≠ .err → hostRead loc t = hostRead loc s

/-- R86, the first pseudo-instruction: `INLOAD` of bytes that fit leaves exactly them in `IN`, from every state. It is
said over runs of the model's own host list (log entry 1). -/
def Obligations.InloadLeavesTheBytesInInput : Prop :=
  ∀ (s : State) (bs : List Byte), bs.length ≤ Config.bufCap →
    core.run (bs.length + 1) (s.presentAll (inload bs)) = .next { s with input := bs, err := .ok, pending := [] }

/-! ### The Frame Codec, building (spec/41_frame_encode.md) -/

/-- R120, R121: the word of `ENCREQ` and its whole effect, for all operand values and from every state. -/
def Obligations.EncreqBuildsTheRequestFrame : Prop :=
  ∀ (slave fc : Byte) (start count : Word),
    decode (0x2000000000000000 ||| (slave.setWidth 64 <<< 48) ||| (fc.setWidth 64 <<< 40) |||
      (start.setWidth 64 <<< 24) ||| (count.setWidth 64 <<< 8)) = .ok (.encreq slave fc start count) ∧
    let h := [slave, fc, start.extractLsb' 8 8, start.extractLsb' 0 8, count.extractLsb' 8 8, count.extractLsb' 0 8]
    ∀ s : State,
      exec (.encreq slave fc start count) s =
        .next { s with
          out := some (h ++ [(crc16 h).extractLsb' 0 8, (crc16 h).extractLsb' 8 8]), crc := crc16 h, err := .ok }

/-- R122: the layout of a request frame, its zero residue, and that different operands give different frames. -/
def Obligations.RequestFrameHoldsItsOperands : Prop :=
  (∀ (slave fc : Byte) (start count : Word),
    ∃ a b c d x y : Byte,
      encodeRequest slave fc start count = [slave, fc, a, b, c, d, x, y] ∧
      (a.setWidth 16 <<< 8) ||| b.setWidth 16 = start ∧
      (c.setWidth 16 <<< 8) ||| d.setWidth 16 = count ∧
      x.setWidth 16 ||| (y.setWidth 16 <<< 8) = crc16 [slave, fc, a, b, c, d] ∧
      crc16 (encodeRequest slave fc start count) = 0x0000) ∧
  ∀ (slave fc slave' fc' : Byte) (start count start' count' : Word),
    encodeRequest slave fc start count = encodeRequest slave' fc' start' count' →
      slave = slave' ∧ fc = fc' ∧ start = start' ∧ count = count'

/-- R124: the word of `ENCCMD slave, hlen` for all operands; for `1 <= hlen <= IN_LEN` the frame is the slave address,
all of `IN` and their CRC, low byte first; otherwise INVALID_ARGUMENT, with `OUT_VALID` cleared. -/
def Obligations.EnccmdBuildsACommandFrameOrRefuses : Prop :=
  ∀ (slave : Byte) (hlen : Word),
    decode (0x2100000000000000 ||| (slave.setWidth 64 <<< 48) ||| (hlen.setWidth 64 <<< 24)) =
      .ok (.enccmd slave hlen) ∧
    ∀ s : State,
      (1 ≤ hlen.toNat → hlen.toNat ≤ s.input.length →
        exec (.enccmd slave hlen) s =
          .next { s with
            out := some (slave :: s.input ++
              [(crc16 (slave :: s.input)).extractLsb' 0 8, (crc16 (slave :: s.input)).extractLsb' 8 8])
            crc := crc16 (slave :: s.input)
            err := .ok }) ∧
      (hlen.toNat = 0 ∨ s.input.length < hlen.toNat →
        exec (.enccmd slave hlen) s = .next { s with out := none, err := .invalidArgument })

/-- R123, R126: `encodeCommand` fails for an empty header and for no other; the layout of what it builds; the shortest
command frame and the worked one of R126. -/
def Obligations.CommandFrameHoldsHeaderAndPayload : Prop :=
  (∀ (slave : Byte) (payload : List Byte), encodeCommand slave [] payload = .error .invalidArgument) ∧
  encodeCommand 0x01 [0x68] [] = .ok [0x01, 0x68, 0x01, 0xCE] ∧
  ∀ (slave : Byte) (header payload : List Byte), header ≠ [] →
    ∃ (f : List Byte) (x y : Byte), encodeCommand slave header payload = .ok f ∧
      f = slave :: (header ++ payload) ++ [x, y] ∧
      f.length = header.length + payload.length + 3 ∧ 4 ≤ f.length ∧
      f[1]? = header[0]? ∧
      x.setWidth 16 ||| (y.setWidth 16 <<< 8) = crc16 (slave :: (header ++ payload)) ∧
      crc16 f = 0x0000 ∧
      (f.length = 4 ↔ header.length = 1 ∧ payload = [])

/-- R125: `ENCREQ` is the special case of `ENCCMD` with a one-byte header and a four-byte payload, as functions and on
the block. -/
def Obligations.RequestIsASpecialCommand : Prop :=
  ∀ (slave fc : Byte) (start count : Word),
    encodeCommand slave [fc] [hi8 start, lo8 start, hi8 count, lo8 count] =
      .ok (encodeRequest slave fc start count) ∧
    ∀ s : State, s.input = [fc, hi8 start, lo8 start, hi8 count, lo8 count] →
      exec (.enccmd slave 1) s = exec (.encreq slave fc start count) s

/-- R129: parsing a built frame gives back what it was built from, with a right CRC; and the register extractor does not
give start and count back when the start's high byte is 3. -/
def Obligations.ParsingABuiltFrameRoundTrips : Prop :=
  (∀ (slave fc : Byte) (start count : Word), ∃ (f : Frame) (a b c d : Byte),
    decodeFrame (encodeRequest slave fc start count) = .ok f ∧
      f.slaveAddress = slave ∧ f.functionCode = fc ∧ f.data = [a, b, c, d] ∧
      (a.setWidth 16 <<< 8) ||| b.setWidth 16 = start ∧
      (c.setWidth 16 <<< 8) ||| d.setWidth 16 = count ∧
      f.crc = crc16 (slave :: fc :: f.data) ∧ f.crcValid = true ∧
      (a = 3 → extractRegisters f.data = [(b.setWidth 16 <<< 8) ||| c.setWidth 16])) ∧
  ∀ (slave h : Byte) (header payload : List Byte), ∃ (w : List Byte) (f : Frame),
    encodeCommand slave (h :: header) payload = .ok w ∧ decodeFrame w = .ok f ∧
      f.slaveAddress = slave ∧ f.functionCode = h ∧ f.data = header ++ payload ∧ f.crcValid = true

/-! ### The Frame Codec, parsing (spec/42_frame_decode.md) -/

/-- R140, R141: fewer than 4 bytes are a malformed frame, and no other byte string is; where each field comes from, the
CRC field low byte first, and when the CRC is valid. -/
def Obligations.DecodeFrameReadsFixedPositions : Prop :=
  (∀ raw : List Byte, raw.length < 4 → decodeFrame raw = .error .malformedFrame) ∧
  ∀ raw : List Byte, 4 ≤ raw.length →
    ∃ (f : Frame) (lo hi : Byte), decodeFrame raw = .ok f ∧
      raw[0]? = some f.slaveAddress ∧ raw[1]? = some f.functionCode ∧
      f.data = (raw.drop 2).take (raw.length - 4) ∧
      raw[raw.length - 2]? = some lo ∧ raw[raw.length - 1]? = some hi ∧
      f.crc = lo.setWidth 16 ||| (hi.setWidth 16 <<< 8) ∧
      (f.crcValid = true ↔ f.crc = crc16 (raw.take (raw.length - 2)))

/-- R142: the word of `DECODE` and its whole effect, on failure and on success; a success is one whether or not the CRC
matches, and leaves the computed CRC in `CRC`. -/
def Obligations.DecodeWritesTheFrameGroup : Prop :=
  decode 0x3000000000000000 = .ok .decode ∧
  (∀ s : State, s.input.length < 4 →
    exec .decode s = .next { s with frame := none, regs := none, err := .malformedFrame }) ∧
  ∀ s : State, 4 ≤ s.input.length →
    ∃ f : Frame, decodeFrame s.input = .ok f ∧
      exec .decode s =
        .next { s with
          frame := some { frame := f, exc := f.functionCode.getLsbD 7 }
          regs := none
          crc := crc16 (s.input.take (s.input.length - 2))
          err := .ok } ∧
      f.data.length = s.input.length - 4 ∧
      (crc16 (s.input.take (s.input.length - 2)) = f.crc ↔ f.crcValid = true)

/-- R148: the Frame's fields put together again are the parsed bytes, two different byte strings never give the same
Frame, and a Frame with a right CRC is rebuilt by `encodeCommand`. -/
def Obligations.ParsingLosesNothing : Prop :=
  (∀ (raw : List Byte) (f : Frame), decodeFrame raw = .ok f →
    raw = f.slaveAddress :: f.functionCode :: f.data ++ [lo8 f.crc, hi8 f.crc]) ∧
  (∀ (raw raw' : List Byte) (f : Frame), decodeFrame raw = .ok f → decodeFrame raw' = .ok f → raw = raw') ∧
  ∀ (raw : List Byte) (f : Frame), decodeFrame raw = .ok f → f.crcValid = true →
    encodeCommand f.slaveAddress [f.functionCode] f.data = .ok raw

/-- R230: a frame checked by hand. `CRC16N (IN_LEN - 2)` leaves in `CRC` what `DECODE` leaves there, and `CRC16` over the
whole frame leaves zero exactly when `DECODE` finds the CRC right. -/
def Obligations.CheckingByHandAgreesWithDecode : Prop :=
  ∀ s : State, 4 ≤ s.input.length → s.input.length ≤ Config.bufCap →
    ∃ t u v g, exec (.crc16n (BitVec.ofNat 16 (s.input.length - 2))) s = .next t ∧
      exec .crc16 s = .next u ∧ exec .decode s = .next v ∧ v.frame = some g ∧
      t.err = .ok ∧ t.crc = v.crc ∧
      (t.crc = g.frame.crc ↔ g.frame.crcValid = true) ∧
      (u.crc = 0x0000 ↔ g.frame.crcValid = true)

/-! ### The Register Extractor (spec/43_register_extract.md) -/

/-- R160, R161, R162: no register below 2 bytes; otherwise one leading byte is dropped exactly when its value is the
number of bytes after it, and register `j` is the `j`-th pair from there, high byte first. -/
def Obligations.RegistersAreBigEndianPairs : Prop :=
  (∀ data : List Byte, data.length < 2 → extractRegisters data = []) ∧
  ∀ (d : Byte) (rest : List Byte), 1 ≤ rest.length →
    let offset := if d.toNat = rest.length then 1 else 0
    (extractRegisters (d :: rest)).length = ((d :: rest).length - offset) / 2 ∧
    ∀ j, j < ((d :: rest).length - offset) / 2 →
      ∃ hi lo, (d :: rest)[offset + 2 * j]? = some hi ∧ (d :: rest)[offset + 2 * j + 1]? = some lo ∧
        (extractRegisters (d :: rest))[j]? = some ((hi.setWidth 16 <<< 8) ||| lo.setWidth 16)

/-- R167: a byte count in front of `n` register pairs is stripped and gives the `n` registers of the pairs; the pairs alone
give the same registers, unless their first byte happens to be `2n - 1`, and then they do not. -/
def Obligations.PrefixedAndPlainPayloadsAgree : Prop :=
  ∀ (n : Nat) (p : List Byte) (r : List Word), 1 ≤ n → p.length = 2 * n → r.length = n →
    (∀ j, j < n → ∃ hi lo, p[2 * j]? = some hi ∧ p[2 * j + 1]? = some lo ∧
      r[j]? = some ((hi.setWidth 16 <<< 8) ||| lo.setWidth 16)) →
    (2 * n ≤ 255 → extractRegisters (BitVec.ofNat 8 (2 * n) :: p) = r) ∧
    (∀ d, p[0]? = some d → d.toNat ≠ 2 * n - 1 → extractRegisters p = r) ∧
    ∀ d, p[0]? = some d → d.toNat = 2 * n - 1 → extractRegisters p ≠ r

/-- R163, R164, R165: the word of `EXTRACT` and its whole effect; the flags and the function code of the frame do not
matter. -/
def Obligations.ExtractWritesTheRegsGroup : Prop :=
  decode 0x3100000000000000 = .ok .extract ∧
  (∀ s : State, s.frame = none → exec .extract s = .next { s with regs := none, err := .noFrame }) ∧
  ∀ (s : State) (a f : Byte) (d : List Byte) (c : Word) (v e : Bool),
    s.frame = some { frame := { slaveAddress := a, functionCode := f, data := d, crc := c, crcValid := v }, exc := e } →
      exec .extract s = .next { s with regs := some (extractRegisters d), err := .ok }

/-! ### All commands (spec/10_state.md, spec/60_exceptions.md) -/

/-- R190, R201: every command, in every state, completes; the host's own fields are not touched. -/
def Obligations.EveryCommandCompletesInEveryState : Prop :=
  ∀ (i : Instr) (s : State), ∃ t, exec i s = .next t ∧ t.pending = s.pending ∧ t.seen = s.seen

/-- R191, R192: each error code is raised by exactly the commands and on exactly the conditions of the table, and the host
reads its number at `ERR`; the number of ILLEGAL_COMMAND is read there after exactly the words that are no command. That a
word is taken from the host's list is the model's own (log entry 1). -/
def Obligations.ErrorCodesHaveExactlyTheirCauses : Prop :=
  (∀ (i : Instr) (s t : State), exec i s = .next t →
    (t.err = .malformedFrame ↔ i = .decode ∧ s.input.length < 4) ∧
    (t.err = .invalidArgument ↔
      (∃ slave hlen, i = .enccmd slave hlen ∧ (hlen.toNat = 0 ∨ s.input.length < hlen.toNat)) ∨
      ∃ n, i = .crc16n n ∧ s.input.length < n.toNat) ∧
    t.err ≠ .illegalCommand ∧
    (t.err = .capacity ↔ (∃ b, i = .inpush b) ∧ s.input.length = Config.bufCap) ∧
    (t.err = .noFrame ↔ i = .extract ∧ s.frame = none) ∧
    (hostRead .err t = some 1 ↔ i = .decode ∧ s.input.length < 4) ∧
    (hostRead .err t = some 2 ↔
      (∃ slave hlen, i = .enccmd slave hlen ∧ (hlen.toNat = 0 ∨ s.input.length < hlen.toNat)) ∨
      ∃ n, i = .crc16n n ∧ s.input.length < n.toNat) ∧
    hostRead .err t ≠ some 3 ∧
    (hostRead .err t = some 4 ↔ (∃ b, i = .inpush b) ∧ s.input.length = Config.bufCap) ∧
    (hostRead .err t = some 5 ↔ i = .extract ∧ s.frame = none) ∧
    (hostRead .err t = some 0 ↔ t.err = .ok)) ∧
  ∀ (s t : State) (w : CmdWord) (rest : List HostAction), s.pending = .present w :: rest → step s = .next t →
    (hostRead .err t = some 3 ↔ (Fields.ofWord w).wellFormed = false)

/-- R195: a failing command writes `ERR`, clears the valid bit of its own destination group if it has one, and writes
nothing else. -/
def Obligations.FailingCommandWritesOnlyErrAndValidBits : Prop :=
  ∀ (i : Instr) (s t : State), exec i s = .next t → t.err ≠ .ok →
    t = match i with
      | .enccmd _ _ => { s with err := t.err, out := none }
      | .decode => { s with err := t.err, frame := none, regs := none }
      | .extract => { s with err := t.err, regs := none }
      | _ => { s with err := t.err }

/-- R32: a place the host reads is unchanged unless the command's row of the table writes its group: the marks "w" when
the command succeeds, the marks "f" when it fails. -/
def Obligations.CommandsWriteOnlyTheirGroups : Prop :=
  ∀ (i : Instr) (s t : State) (loc : Loc), exec i s = .next t →
    loc.group ∉ (if t.err = .ok then successWrites i else failWrites i) → hostRead loc t = hostRead loc s

/-- R31: the result code is overwritten by every command word, legal or not: the state after it does not depend on
what `ERR` held. -/
def Obligations.ErrIsOverwrittenByEveryWord : Prop :=
  ∀ (s : State) (w : CmdWord) (rest : List HostAction) (e : ErrCode), s.pending = .present w :: rest →
    step { s with err := e } = step s

/-- R30, R164, R165: no command's result depends on `F_CRCVALID` or `F_EXC`: with other values of the two flags it
leaves the same state, but for the two flags themselves where it keeps the frame. -/
def Obligations.CommandsIgnoreTheFrameFlags : Prop :=
  ∀ (i : Instr) (s t : State) (g : FrameRegs) (v e : Bool), s.frame = some g → exec i s = .next t →
    ∃ u, exec i { s with frame := some { frame := { g.frame with crcValid := v }, exc := e } } = .next u ∧
      t = { u with frame := t.frame } ∧
      (i = .decode → u.frame = t.frame) ∧
      (i ≠ .decode → t.frame = some g ∧
        u.frame = some { frame := { g.frame with crcValid := v }, exc := e })

/-- R23, R224: `CRC` is never written by `INCLR`, `INPUSH` or `EXTRACT`, by a failing command or by an illegal word, so
none of them disturbs a stream of `CRCBYTE`. -/
def Obligations.StreamIsNotDisturbed : Prop :=
  (∀ (i : Instr) (s t : State), exec i s = .next t →
    (i = .inclr ∨ (∃ b, i = .inpush b) ∨ i = .extract ∨ t.err ≠ .ok) → t.crc = s.crc) ∧
  ∀ (s t : State) (w : CmdWord) (rest : List HostAction), s.pending = .present w :: rest →
    (∀ i, decode w ≠ .ok i) → step s = .next t → t.crc = s.crc

/-- Every command but `CRCBYTE` and `INPUSH`, given again at once, leaves the same state. R104, R143 and R163 say so of
`CRCINIT`, `DECODE` and `EXTRACT`; of the others it follows from their own rules (R106, R107, R180, R120, R124), and where a
command fails, from R195. -/
def Obligations.RepeatedCommandLeavesTheSameState : Prop :=
  ∀ (i : Instr) (s t : State), (∀ b, i ≠ .crcbyte b) → (∀ b, i ≠ .inpush b) →
    exec i s = .next t → exec i t = .next t

/-! ### The host and whole runs (spec/10_state.md, spec/70_reset_and_hazards.md) -/

/-- R22: the places that hold no value `⊥`, and that all others hold one. That a group is held as an optional value is the
model's form, which R22 permits (log entry 4). R22 speaks of four valid bits; the three that R20, R30 and R34 name are the ones
here (log entry 14). -/
def Obligations.NoValueExactlyWhereTheSpecSays : Prop :=
  ∀ (s : State) (loc : Loc), hostRead loc s = none ↔
    match loc with
    | .inByte i => s.input.length ≤ i
    | .outLen => s.out = none
    | .outByte i => ∀ f, s.out = some f → f.length ≤ i
    | .fSlave => s.frame = none
    | .fFc => s.frame = none
    | .fDlen => s.frame = none
    | .fCrc => s.frame = none
    | .fCrcValid => s.frame = none
    | .fExc => s.frame = none
    | .fData i => ∀ g, s.frame = some g → g.frame.data.length ≤ i
    | .regsLen => s.regs = none
    | .regsWord i => ∀ r, s.regs = some r → r.length ≤ i
    | .crc => False
    | .inLen => False
    | .outValid => False
    | .fValid => False
    | .regsValid => False
    | .err => False

/-- R33: a host read gives the value and leaves every place as it was, or it is refused. That the read is taken from the
list of the host's actions (log entry 1) and the value added to the list of what the host has seen (log entry 8) is the
model's own. -/
def Obligations.HostReadHasNoSideEffect : Prop :=
  ∀ (s : State) (loc : Loc) (rest : List HostAction), s.pending = .read loc :: rest →
    (∀ v, hostRead loc s = some v → ∃ t, step s = .next t ∧ t.pending = rest ∧ t.seen = s.seen ++ [(loc, v)] ∧
      ∀ l, hostRead l t = hostRead l s) ∧
    (hostRead loc s = none → step s = .refused (.readOfNoValue loc))

/-- R190 and R22: the machine stops nowhere but at a host read of a place that holds no value. (That a step with no
action of the host pending leaves the state as it is, is the model's choice, log entry 2.) -/
def Obligations.MachineStopsOnlyAtAReadOfNoValue : Prop :=
  ∀ s : State, (∃ t, step s = .next t) ∨
    ∃ loc rest, s.pending = .read loc :: rest ∧ hostRead loc s = none ∧ step s = .refused (.readOfNoValue loc)

/-- R34, R220, R221: the state after reset, and the reset event, which puts every place of the block at its reset value
from any state. R34 says "These values are the spec's own" (log entry 6); that what the host has yet to do stays is the
model's choice (log entries 1 and 9). -/
def Obligations.ResetRestoresTheTable : Prop :=
  (hostRead .crc State.reset = some 0xFFFF ∧ hostRead .inLen State.reset = some 0 ∧
    hostRead .outValid State.reset = some 0 ∧ hostRead .fValid State.reset = some 0 ∧
    hostRead .regsValid State.reset = some 0 ∧ hostRead .err State.reset = some 0 ∧
    ∀ loc, loc ≠ .crc → loc ≠ .inLen → loc ≠ .outValid → loc ≠ .fValid → loc ≠ .regsValid → loc ≠ .err →
      hostRead loc State.reset = none) ∧
  ∀ (s : State) (rest : List HostAction), s.pending = .reset :: rest →
    ∃ t, step s = .next t ∧ t.pending = rest ∧ ∀ loc, hostRead loc t = hostRead loc State.reset

/-- R222: what every command does right after reset. The reset values are the spec's own decision ("These values are the
spec's own", R34; log entry 6). -/
def Obligations.CommandsOnTheResetState : Prop :=
  exec .crcinit State.reset = .next State.reset ∧
  (∀ b, exec (.crcbyte b) State.reset = .next { State.reset with crc := crcByte 0xFFFF b }) ∧
  exec .crc16 State.reset = .next { State.reset with crc := 0xFFFF } ∧
  exec (.crc16n 0) State.reset = .next { State.reset with crc := 0xFFFF } ∧
  (∀ n, 1 ≤ n.toNat → exec (.crc16n n) State.reset = .next { State.reset with err := .invalidArgument }) ∧
  exec .inclr State.reset = .next State.reset ∧
  (∀ b, exec (.inpush b) State.reset = .next { State.reset with input := [b] }) ∧
  (∀ slave fc start count, ∃ t, exec (.encreq slave fc start count) State.reset = .next t ∧ t.err = .ok) ∧
  (∀ slave hlen, exec (.enccmd slave hlen) State.reset = .next { State.reset with err := .invalidArgument }) ∧
  exec .decode State.reset = .next { State.reset with err := .malformedFrame } ∧
  exec .extract State.reset = .next { State.reset with err := .noFrame }

/-- The state after reset meets the invariant of the block (R27, R28, R50) and the form of `OUT` (R25, R70). The reset
values are the spec's own decision ("These values are the spec's own", R34). -/
def Obligations.ResetMeetsTheInvariants : Prop :=
  State.reset.Inv ∧ OutOk State.reset

/-- R27, R28, R50: from every state that meets them, each step (a command, an illegal word, a read, reset) keeps the
capacities of the buffers, the frame invariant and the register-set invariant. -/
def Obligations.EveryStepKeepsTheInvariant : Prop :=
  ∀ s t : State, s.Inv → step s = .next t → t.Inv

/-- R25, R70: a valid `OUT` always holds a built wire frame: every step keeps it so. -/
def Obligations.EveryStepKeepsAWireFrameInOut : Prop :=
  ∀ s t : State, OutOk s → step s = .next t → OutOk t

/-- R20: in every state within the capacities each place fits the width the table gives it. A length is the length of a
list in the model (log entry 5), so the width is a fact to be shown. -/
def Obligations.EveryPlaceFitsItsWidth : Prop :=
  ∀ (s : State) (loc : Loc) (v : Nat), Memory.wf s → hostRead loc s = some v → v < 2 ^ loc.width

/-- R129, R223, R166 on the block, from every state and for every operand: build a request, load the very frame, parse it
and extract. The parsed frame holds the operands and a right CRC, and the registers are the start and the count unless
the start's high byte is 3, which the offset heuristic takes for a byte count. The run goes through the model's own host
list (log entry 1). -/
def Obligations.LoopedBackRequestIsParsedBack : Prop :=
  ∀ (s : State) (slave fc : Byte) (start count : Word),
    core.run 12 (s.presentAll
        (callEncodeRequest slave fc start count ++ callExtractRegisters (encodeRequest slave fc start count))) =
      .next { s with
        crc := crc16 [slave, fc, hi8 start, lo8 start, hi8 count, lo8 count]
        input := encodeRequest slave fc start count
        out := some (encodeRequest slave fc start count)
        frame := some
          { frame :=
              { slaveAddress := slave
                functionCode := fc
                data := [hi8 start, lo8 start, hi8 count, lo8 count]
                crc := crc16 [slave, fc, hi8 start, lo8 start, hi8 count, lo8 count]
                crcValid := true }
            exc := fc.getLsbD 7 }
        regs := some (if hi8 start = 3 then [be16 (lo8 start) (hi8 count)] else [start, count])
        err := .ok
        pending := [] }

/-- R85 on the block, from every state and for every argument that fits `IN`: the commands each function call of the source
maps to run to their end and leave the function's result, or its failure, in the block. The runs go through the model's
own host list (log entry 1). -/
def Obligations.FunctionCallsRunOnTheBlock : Prop :=
  ∀ s : State,
    (∀ bs, bs.length ≤ Config.bufCap →
      ∃ t, core.run (callCrc16 bs).length (s.presentAll (callCrc16 bs)) = .next t ∧
        t.crc = crc16 bs ∧ t.err = .ok) ∧
    (∀ bs (n : Word), bs.length ≤ Config.bufCap → n.toNat ≤ bs.length →
      ∃ t, core.run (callCrc16n bs n).length (s.presentAll (callCrc16n bs n)) = .next t ∧
        t.crc = crc16 (bs.take n.toNat) ∧ t.err = .ok) ∧
    (∀ slave fc start count,
      ∃ t, core.run (callEncodeRequest slave fc start count).length
          (s.presentAll (callEncodeRequest slave fc start count)) = .next t ∧
        t.out = some (encodeRequest slave fc start count) ∧ t.err = .ok) ∧
    (∀ slave header payload, (header ++ payload).length ≤ Config.bufCap →
      ∃ t, core.run (callEncodeCommand slave header payload).length
          (s.presentAll (callEncodeCommand slave header payload)) = .next t ∧
        ((∃ f, encodeCommand slave header payload = .ok f ∧ t.out = some f ∧ t.err = .ok) ∨
          ∃ e, encodeCommand slave header payload = .error e ∧ t.out = none ∧ t.err = e)) ∧
    (∀ raw, raw.length ≤ Config.bufCap →
      ∃ t, core.run (callDecodeFrame raw).length (s.presentAll (callDecodeFrame raw)) = .next t ∧
        ((∃ f g, decodeFrame raw = .ok f ∧ t.frame = some g ∧ g.frame = f ∧ t.err = .ok) ∨
          ∃ e, decodeFrame raw = .error e ∧ t.frame = none ∧ t.err = e)) ∧
    (∀ raw f, raw.length ≤ Config.bufCap → decodeFrame raw = .ok f →
      ∃ t, core.run (callExtractRegisters raw).length (s.presentAll (callExtractRegisters raw)) = .next t ∧
        t.regs = some (extractRegisters f.data) ∧ t.err = .ok)

/-! ### What the host's reads give (spec/10_state.md R20, R33; spec/44_buffer_commands.md R183) -/

/-- R20, R33: the value the host reads at each place that holds one, in every state: registers and buffer elements as
unsigned numbers, lengths, valid bits and flags as 0 or 1, and `ERR` as the number of the code (R191). How the model holds
a group, a length and `ERR` is its own (log entries 4, 5 and 12). -/
def Obligations.HostReadsTheValueOfEachPlace : Prop :=
  ∀ s : State,
    hostRead .crc s = some s.crc.toNat ∧
    hostRead .inLen s = some s.input.length ∧
    (∀ i (h : i < s.input.length), hostRead (.inByte i) s = some s.input[i].toNat) ∧
    (s.out = none → hostRead .outValid s = some 0) ∧
    (∀ f, s.out = some f →
      hostRead .outValid s = some 1 ∧ hostRead .outLen s = some f.length ∧
      ∀ i (h : i < f.length), hostRead (.outByte i) s = some f[i].toNat) ∧
    (s.frame = none → hostRead .fValid s = some 0) ∧
    (∀ (slave fc : Byte) (data : List Byte) (crc : Word) (v e : Bool),
      s.frame = some
          { frame := { slaveAddress := slave, functionCode := fc, data := data, crc := crc, crcValid := v }, exc := e } →
        hostRead .fValid s = some 1 ∧ hostRead .fSlave s = some slave.toNat ∧ hostRead .fFc s = some fc.toNat ∧
        hostRead .fDlen s = some data.length ∧
        (∀ i (h : i < data.length), hostRead (.fData i) s = some data[i].toNat) ∧
        hostRead .fCrc s = some crc.toNat ∧
        hostRead .fCrcValid s = some (if v = true then 1 else 0) ∧
        hostRead .fExc s = some (if e = true then 1 else 0)) ∧
    (s.regs = none → hostRead .regsValid s = some 0) ∧
    (∀ r, s.regs = some r →
      hostRead .regsValid s = some 1 ∧ hostRead .regsLen s = some r.length ∧
      ∀ i (h : i < r.length), hostRead (.regsWord i) s = some r[i].toNat) ∧
    hostRead .err s = some
      (match s.err with
      | .ok => 0
      | .malformedFrame => 1
      | .invalidArgument => 2
      | .illegalCommand => 3
      | .capacity => 4
      | .noFrame => 5)

/-- R142 and R183, from the host's side alone: what the host reads after a `DECODE` of a frame, in terms of what it reads in
`IN` before. -/
def Obligations.HostReadsTheParsedFrame : Prop :=
  ∀ s : State, 4 ≤ s.input.length →
    ∃ t lo hi fc, exec .decode s = .next t ∧
      hostRead (.inByte (s.input.length - 2)) s = some lo ∧
      hostRead (.inByte (s.input.length - 1)) s = some hi ∧
      hostRead (.inByte 1) s = some fc ∧
      hostRead .fValid t = some 1 ∧
      hostRead .fSlave t = hostRead (.inByte 0) s ∧
      hostRead .fFc t = some fc ∧
      hostRead .fDlen t = some (s.input.length - 4) ∧
      (∀ j, j < s.input.length - 4 → hostRead (.fData j) t = hostRead (.inByte (j + 2)) s) ∧
      hostRead .fCrc t = some (lo + 256 * hi) ∧
      hostRead .fCrcValid t = some (if hostRead .crc t = hostRead .fCrc t then 1 else 0) ∧
      hostRead .fExc t = some (if 128 ≤ fc then 1 else 0) ∧
      hostRead .regsValid t = some 0 ∧
      hostRead .err t = some 0

/-- R120, R124 and R183: what the host reads after `ENCREQ`, and after an `ENCCMD` that succeeds: the length and each byte
of the frame, and the number in `CRC` that its last two bytes carry, low byte first. -/
def Obligations.HostReadsTheBuiltFrame : Prop :=
  (∀ (slave fc : Byte) (start count : Word) (s : State),
    ∃ t lo hi, exec (.encreq slave fc start count) s = .next t ∧
      hostRead .outValid t = some 1 ∧ hostRead .outLen t = some 8 ∧
      hostRead (.outByte 0) t = some slave.toNat ∧ hostRead (.outByte 1) t = some fc.toNat ∧
      hostRead (.outByte 2) t = some (start.toNat / 256) ∧ hostRead (.outByte 3) t = some (start.toNat % 256) ∧
      hostRead (.outByte 4) t = some (count.toNat / 256) ∧ hostRead (.outByte 5) t = some (count.toNat % 256) ∧
      hostRead (.outByte 6) t = some lo ∧ hostRead (.outByte 7) t = some hi ∧
      hostRead .crc t = some (lo + 256 * hi) ∧ hostRead .err t = some 0) ∧
  ∀ (slave : Byte) (hlen : Word) (s : State), 1 ≤ hlen.toNat → hlen.toNat ≤ s.input.length →
    ∃ t lo hi, exec (.enccmd slave hlen) s = .next t ∧
      hostRead .outValid t = some 1 ∧ hostRead .outLen t = some (s.input.length + 3) ∧
      hostRead (.outByte 0) t = some slave.toNat ∧
      (∀ j, j < s.input.length → hostRead (.outByte (j + 1)) t = hostRead (.inByte j) s) ∧
      hostRead (.outByte (s.input.length + 1)) t = some lo ∧ hostRead (.outByte (s.input.length + 2)) t = some hi ∧
      hostRead .crc t = some (lo + 256 * hi) ∧ hostRead .err t = some 0

/-- R163 and R183: what the host reads after `EXTRACT`, in terms of what it reads in the frame registers before: each
register is a pair of data bytes, high byte first, after the byte count if there is one. -/
def Obligations.HostReadsTheExtractedRegisters : Prop :=
  ∀ (s : State) (g : FrameRegs), s.frame = some g →
    ∃ t, exec .extract s = .next t ∧
      hostRead .regsValid t = some 1 ∧ hostRead .err t = some 0 ∧
      (g.frame.data.length < 2 → hostRead .regsLen t = some 0) ∧
      (2 ≤ g.frame.data.length →
        let offset := if hostRead (.fData 0) s = some (g.frame.data.length - 1) then 1 else 0
        hostRead .regsLen t = some ((g.frame.data.length - offset) / 2) ∧
        ∀ j, j < (g.frame.data.length - offset) / 2 →
          ∃ hi lo, hostRead (.fData (offset + 2 * j)) s = some hi ∧ hostRead (.fData (offset + 2 * j + 1)) s = some lo ∧
            hostRead (.regsWord j) t = some (256 * hi + lo))
end

