-- ==== Sys2Proof/Laws/State.lean ====
section
/-! SUPPORT. One lemma per field per update of the state. -/

namespace Sys2Proof.Machine

variable (s : State)

@[simp] theorem State.setCrc_crc (v : Word) : (s.setCrc v).crc = v := rfl
@[simp] theorem State.setCrc_input (v : Word) : (s.setCrc v).input = s.input := rfl
@[simp] theorem State.setCrc_out (v : Word) : (s.setCrc v).out = s.out := rfl
@[simp] theorem State.setCrc_frame (v : Word) : (s.setCrc v).frame = s.frame := rfl
@[simp] theorem State.setCrc_regs (v : Word) : (s.setCrc v).regs = s.regs := rfl
@[simp] theorem State.setCrc_err (v : Word) : (s.setCrc v).err = s.err := rfl
@[simp] theorem State.setCrc_pending (v : Word) : (s.setCrc v).pending = s.pending := rfl
@[simp] theorem State.setCrc_seen (v : Word) : (s.setCrc v).seen = s.seen := rfl

@[simp] theorem State.setInput_crc (v : List Byte) : (s.setInput v).crc = s.crc := rfl
@[simp] theorem State.setInput_input (v : List Byte) : (s.setInput v).input = v := rfl
@[simp] theorem State.setInput_out (v : List Byte) : (s.setInput v).out = s.out := rfl
@[simp] theorem State.setInput_frame (v : List Byte) : (s.setInput v).frame = s.frame := rfl
@[simp] theorem State.setInput_regs (v : List Byte) : (s.setInput v).regs = s.regs := rfl
@[simp] theorem State.setInput_err (v : List Byte) : (s.setInput v).err = s.err := rfl
@[simp] theorem State.setInput_pending (v : List Byte) : (s.setInput v).pending = s.pending := rfl
@[simp] theorem State.setInput_seen (v : List Byte) : (s.setInput v).seen = s.seen := rfl

@[simp] theorem State.setOut_crc (v : Option (List Byte)) : (s.setOut v).crc = s.crc := rfl
@[simp] theorem State.setOut_input (v : Option (List Byte)) : (s.setOut v).input = s.input := rfl
@[simp] theorem State.setOut_out (v : Option (List Byte)) : (s.setOut v).out = v := rfl
@[simp] theorem State.setOut_frame (v : Option (List Byte)) : (s.setOut v).frame = s.frame := rfl
@[simp] theorem State.setOut_regs (v : Option (List Byte)) : (s.setOut v).regs = s.regs := rfl
@[simp] theorem State.setOut_err (v : Option (List Byte)) : (s.setOut v).err = s.err := rfl
@[simp] theorem State.setOut_pending (v : Option (List Byte)) : (s.setOut v).pending = s.pending := rfl
@[simp] theorem State.setOut_seen (v : Option (List Byte)) : (s.setOut v).seen = s.seen := rfl

@[simp] theorem State.setFrame_crc (v : Option FrameRegs) : (s.setFrame v).crc = s.crc := rfl
@[simp] theorem State.setFrame_input (v : Option FrameRegs) : (s.setFrame v).input = s.input := rfl
@[simp] theorem State.setFrame_out (v : Option FrameRegs) : (s.setFrame v).out = s.out := rfl
@[simp] theorem State.setFrame_frame (v : Option FrameRegs) : (s.setFrame v).frame = v := rfl
@[simp] theorem State.setFrame_regs (v : Option FrameRegs) : (s.setFrame v).regs = s.regs := rfl
@[simp] theorem State.setFrame_err (v : Option FrameRegs) : (s.setFrame v).err = s.err := rfl
@[simp] theorem State.setFrame_pending (v : Option FrameRegs) : (s.setFrame v).pending = s.pending := rfl
@[simp] theorem State.setFrame_seen (v : Option FrameRegs) : (s.setFrame v).seen = s.seen := rfl

@[simp] theorem State.setRegs_crc (v : Option (List Word)) : (s.setRegs v).crc = s.crc := rfl
@[simp] theorem State.setRegs_input (v : Option (List Word)) : (s.setRegs v).input = s.input := rfl
@[simp] theorem State.setRegs_out (v : Option (List Word)) : (s.setRegs v).out = s.out := rfl
@[simp] theorem State.setRegs_frame (v : Option (List Word)) : (s.setRegs v).frame = s.frame := rfl
@[simp] theorem State.setRegs_regs (v : Option (List Word)) : (s.setRegs v).regs = v := rfl
@[simp] theorem State.setRegs_err (v : Option (List Word)) : (s.setRegs v).err = s.err := rfl
@[simp] theorem State.setRegs_pending (v : Option (List Word)) : (s.setRegs v).pending = s.pending := rfl
@[simp] theorem State.setRegs_seen (v : Option (List Word)) : (s.setRegs v).seen = s.seen := rfl

@[simp] theorem State.setErr_crc (v : ErrCode) : (s.setErr v).crc = s.crc := rfl
@[simp] theorem State.setErr_input (v : ErrCode) : (s.setErr v).input = s.input := rfl
@[simp] theorem State.setErr_out (v : ErrCode) : (s.setErr v).out = s.out := rfl
@[simp] theorem State.setErr_frame (v : ErrCode) : (s.setErr v).frame = s.frame := rfl
@[simp] theorem State.setErr_regs (v : ErrCode) : (s.setErr v).regs = s.regs := rfl
@[simp] theorem State.setErr_err (v : ErrCode) : (s.setErr v).err = v := rfl
@[simp] theorem State.setErr_pending (v : ErrCode) : (s.setErr v).pending = s.pending := rfl
@[simp] theorem State.setErr_seen (v : ErrCode) : (s.setErr v).seen = s.seen := rfl

@[simp] theorem State.setPending_crc (v : List HostAction) : (s.setPending v).crc = s.crc := rfl
@[simp] theorem State.setPending_input (v : List HostAction) : (s.setPending v).input = s.input := rfl
@[simp] theorem State.setPending_out (v : List HostAction) : (s.setPending v).out = s.out := rfl
@[simp] theorem State.setPending_frame (v : List HostAction) : (s.setPending v).frame = s.frame := rfl
@[simp] theorem State.setPending_regs (v : List HostAction) : (s.setPending v).regs = s.regs := rfl
@[simp] theorem State.setPending_err (v : List HostAction) : (s.setPending v).err = s.err := rfl
@[simp] theorem State.setPending_pending (v : List HostAction) : (s.setPending v).pending = v := rfl
@[simp] theorem State.setPending_seen (v : List HostAction) : (s.setPending v).seen = s.seen := rfl

@[simp] theorem State.invalidate_noGroup :
    s.invalidate .noGroup = s := rfl
@[simp] theorem State.invalidate_outGroup :
    s.invalidate .outGroup = s.setOut none := rfl
@[simp] theorem State.invalidate_frameAndRegs :
    s.invalidate .frameAndRegs = (s.setFrame none).setRegs none := rfl
@[simp] theorem State.invalidate_regsGroup :
    s.invalidate .regsGroup = s.setRegs none := rfl

/-- No update of the block's registers is left out: a state is its eight fields. -/
theorem State.ext_fields (t : State) (hc : s.crc = t.crc) (hi : s.input = t.input) (ho : s.out = t.out)
    (hf : s.frame = t.frame) (hr : s.regs = t.regs) (he : s.err = t.err) (hp : s.pending = t.pending)
    (hs : s.seen = t.seen) : s = t := by
  cases s
  cases t
  simp_all

end Sys2Proof.Machine
end

