-- ==== Sys2Proof/Laws/Ops.lean ====
section
/-! SUPPORT. What the shared operations can do: one lemma for each end of a command, and the spans of the input
buffer as plain list operations. -/

namespace Sys2Proof.Machine

/-- A successful end answers one next state: `ERR` = 0 and all else as it was. -/
theorem finish_eq_next {s t : State} : finish s = .next t ↔ t = s.setErr .ok := by
  constructor
  · intro h
    cases h
    rfl
  · intro h
    subst h
    rfl

/-- A failing end answers one next state: the code in `ERR`, the destination group's valid bits cleared. -/
theorem raise_eq_next {e : ErrCode} {g : DestGroup} {s t : State} :
    raise e g s = .next t ↔ t = (s.invalidate g).setErr e := by
  constructor
  · intro h
    cases h
    rfl
  · intro h
    subst h
    rfl

/-- An illegal word answers one next state: `ERR` = 3 and all else as it was. -/
theorem raiseIllegal_eq_next {s t : State} : raiseIllegal s = .next t ↔ t = s.setErr .illegalCommand :=
  raise_eq_next

theorem State.inSpan_eq (s : State) : s.inSpan = s.input := rfl

theorem State.inLen_eq (s : State) : s.inLen = s.input.length := rfl

theorem slice_zero (s : List Byte) (b : Nat) : slice s 0 b = s.take b := by
  simp [slice]

theorem slice_to_end (s : List Byte) (a : Nat) : slice s a s.length = s.drop a := by
  simp [slice]

theorem State.inPrefix_eq (s : State) (n : Nat) : s.inPrefix n = s.input.take n := slice_zero _ _

theorem State.inRest_eq (s : State) (n : Nat) : s.inRest n = s.input.drop n := slice_to_end _ _

/-- Header and payload of `ENCCMD` together are the whole of `IN`. -/
theorem State.inPrefix_append_inRest (s : State) (n : Nat) : s.inPrefix n ++ s.inRest n = s.input := by
  rw [State.inPrefix_eq, State.inRest_eq, List.take_append_drop]

end Sys2Proof.Machine
end

