-- ==== Sys2Proof/Laws/Memory.lean ====
section
/-! SUPPORT. The capacities, and that every operation on the buffers keeps them: the lengths that commands write
are within the capacities (spec/20_memory.md R50, R51). -/

namespace Sys2Proof

theorem Config.eight_le_bufCap : 8 ≤ Config.bufCap := by
  unfold Config.bufCap
  omega

theorem Config.bufCap_le : Config.bufCap ≤ 65535 := by
  have h := Config.bufExtra.isLt
  unfold Config.bufCap
  omega

theorem Config.outCap_eq : Config.outCap = Config.bufCap + 3 := rfl

theorem Config.fdataCap_eq : Config.fdataCap = Config.bufCap - 4 := rfl

theorem Config.regsCap_eq : Config.regsCap = (Config.bufCap - 4) / 2 := rfl

namespace Machine

variable {s : State}

/-! ### Lengths of what commands write -/

@[simp] theorem length_sealFrame (h : List Byte) : (sealFrame h).length = h.length + 2 := by
  simp [sealFrame]

theorem length_slice (s : List Byte) (a b : Nat) (hb : b ≤ s.length) : (slice s a b).length = b - a := by
  simp [slice]
  omega

theorem length_bePairs : ∀ s : List Byte, (bePairs s).length = s.length / 2
  | [] => rfl
  | [_] => by simp [bePairs]
  | _ :: _ :: rest => by
    have h := length_bePairs rest
    simp only [bePairs, List.length_cons, h]
    omega

theorem length_extractRegisters_le (d : List Byte) : (extractRegisters d).length ≤ d.length / 2 := by
  unfold extractRegisters
  split
  · simp
  · rw [length_bePairs, List.length_drop]
    omega

/-! ### The operations on the buffers -/

theorem Memory.wf_reset : Memory.wf State.reset := by
  simp [Memory.wf, State.reset]

/-- Writing `IN` keeps the form when the new contents fit. -/
theorem Memory.wf_setInput (h : Memory.wf s) {v : List Byte} (hv : v.length ≤ Config.bufCap) :
    Memory.wf (s.setInput v) :=
  ⟨hv, h.2.1, h.2.2.1, h.2.2.2⟩

/-- The append of `INPUSH` keeps the form: it is made only below the capacity. -/
theorem Memory.wf_append (h : Memory.wf s) (b : Byte) (hlt : s.inLen ≠ Config.bufCap) :
    Memory.wf (s.setInput (s.input ++ [b])) := by
  refine Memory.wf_setInput h ?_
  have h1 := h.1
  simp only [State.inLen_eq] at hlt
  simp
  omega

theorem Memory.wf_setOut (h : Memory.wf s) {v : Option (List Byte)} (hv : ∀ f ∈ v, f.length ≤ Config.outCap) :
    Memory.wf (s.setOut v) :=
  ⟨h.1, hv, h.2.2.1, h.2.2.2⟩

theorem Memory.wf_setFrame (h : Memory.wf s) {v : Option FrameRegs}
    (hv : ∀ g ∈ v, g.frame.data.length ≤ Config.fdataCap) : Memory.wf (s.setFrame v) :=
  ⟨h.1, h.2.1, hv, h.2.2.2⟩

theorem Memory.wf_setRegs (h : Memory.wf s) {v : Option (List Word)}
    (hv : ∀ r ∈ v, r.length ≤ Config.regsCap) : Memory.wf (s.setRegs v) :=
  ⟨h.1, h.2.1, h.2.2.1, hv⟩

theorem Memory.wf_setCrc (h : Memory.wf s) (v : Word) : Memory.wf (s.setCrc v) := h

theorem Memory.wf_setErr (h : Memory.wf s) (e : ErrCode) : Memory.wf (s.setErr e) := h

theorem Memory.wf_setPending (h : Memory.wf s) (v : List HostAction) : Memory.wf (s.setPending v) := h

/-- Clearing a destination group keeps the form. -/
theorem Memory.wf_invalidate (h : Memory.wf s) (g : DestGroup) : Memory.wf (s.invalidate g) := by
  cases g
  · exact h
  · exact Memory.wf_setOut h (by simp)
  · exact Memory.wf_setRegs (Memory.wf_setFrame h (by simp)) (by simp)
  · exact Memory.wf_setRegs h (by simp)

theorem Memory.wf_resetEvent (s : State) : Memory.wf (resetEvent s) := Memory.wf_reset

end Machine

end Sys2Proof
end

