-- ==== Sys2Proof/Laws/PerInstr.lean ====
section
/-! SUPPORT. A statement for every command, one lemma per constructor: the fields a command is encoded with are
well formed, its opcode is assigned and every field its format does not use is zero (spec/30_encoding.md R78,
R79). -/

namespace Sys2Proof.Laws.FieldsFit

/-- The fields of the command's word are those of a legal word. -/
def Statement (i : Instr) : Prop := i.fields.wellFormed = true

theorem crcinit : Statement .crcinit := rfl

theorem crcbyte (b : Byte) : Statement (.crcbyte b) := rfl

theorem crc16 : Statement .crc16 := rfl

theorem crc16n (n : Word) : Statement (.crc16n n) := rfl

theorem inclr : Statement .inclr := rfl

theorem inpush (b : Byte) : Statement (.inpush b) := rfl

theorem encreq (slave fc : Byte) (start count : Word) : Statement (.encreq slave fc start count) := rfl

theorem enccmd (slave : Byte) (hlen : Word) : Statement (.enccmd slave hlen) := rfl

theorem decode : Statement .decode := rfl

theorem extract : Statement .extract := rfl

/-- The statement holds of every command. -/
theorem all (i : Instr) : Statement i := by
  cases i with
  | crcinit => exact crcinit
  | crcbyte b => exact crcbyte b
  | crc16 => exact crc16
  | crc16n n => exact crc16n n
  | inclr => exact inclr
  | inpush b => exact inpush b
  | encreq slave fc start count => exact encreq slave fc start count
  | enccmd slave hlen => exact enccmd slave hlen
  | decode => exact decode
  | extract => exact extract

end Sys2Proof.Laws.FieldsFit
end

