-- ==== Sys2Proof/Tests/Slice0.lean ====
section
/-! SUPPORT. Tests with results from spec/95_test_vectors.md, the checks of WellFormed refusing an ill-formed term
each, and for every statement with hypotheses a state and operands that meet them. -/

namespace Sys2Proof.Tests

open Sys2Proof.Machine

/-- The next state of a result, if it is one. -/
def nextOf (r : Result) : Option State :=
  match r with
  | .next s => some s
  | _ => none

/-- The state after reset with these bytes in `IN`. -/
def withIn (bs : List Byte) : State := { State.reset with input := bs }

/-- The state after reset with this word presented. -/
def presented (w : CmdWord) : State := State.reset.present w

/-- The bytes of vector V-D14. -/
def goodFrame : List Byte := [0x01, 0x03, 0x02, 0x04, 0xD2, 0x3A, 0xD9]

/-- A state in which every group is valid: V-E1, then V-D14 loaded, parsed and extracted. -/
def full : State :=
  { crc := 0xD93A
    input := goodFrame
    out := some [0x01, 0x03, 0x00, 0x00, 0x00, 0x0A, 0xC5, 0xCD]
    frame := some
      { frame := { slaveAddress := 0x01, functionCode := 0x03, data := [0x02, 0x04, 0xD2], crc := 0xD93A, crcValid := true }
        exc := false }
    regs := some [0x04D2]
    err := .ok
    pending := []
    seen := [] }

/-! ### WellFormed refuses: one ill-formed term per check -/

/-- V-I1 to V-I4: an opcode that names no command. -/
theorem test_unassigned_op :
    ([0x00, 0x05, 0xFF, 0xB1].map fun op => Fields.wellFormed { op := op, a := 0, b := 0, h := 0, c := 0, z := 0 }) =
      [false, false, false, false] := by decide

/-- Format N with one nonzero field each: `a`, `b`, `h`, `c`, `z` (V-I5, V-I7, V-I11 among them). -/
theorem test_format_N_refuses :
    [Fields.wellFormed { op := 0x01, a := 1, b := 0, h := 0, c := 0, z := 0 },
      Fields.wellFormed { op := 0x03, a := 0, b := 1, h := 0, c := 0, z := 0 },
      Fields.wellFormed { op := 0x10, a := 0, b := 0, h := 1, c := 0, z := 0 },
      Fields.wellFormed { op := 0x30, a := 0, b := 0, h := 0, c := 1, z := 0 },
      Fields.wellFormed { op := 0x31, a := 0, b := 0, h := 0, c := 0, z := 1 }] =
      [false, false, false, false, false] := by decide

/-- Format B with one nonzero unused field each (V-I6 among them). -/
theorem test_format_B_refuses :
    [Fields.wellFormed { op := 0x02, a := 1, b := 5, h := 0, c := 0, z := 0 },
      Fields.wellFormed { op := 0x02, a := 0, b := 5, h := 1, c := 0, z := 0 },
      Fields.wellFormed { op := 0x11, a := 0, b := 5, h := 0, c := 1, z := 0 },
      Fields.wellFormed { op := 0x11, a := 0, b := 5, h := 0, c := 0, z := 1 }] = [false, false, false, false] := by decide

/-- Format L with one nonzero unused field each (V-I8 and V-I15 among them). -/
theorem test_format_L_refuses :
    [Fields.wellFormed { op := 0x04, a := 0xFF, b := 0, h := 0, c := 0, z := 0 },
      Fields.wellFormed { op := 0x04, a := 0, b := 0xFF, h := 0, c := 0, z := 0 },
      Fields.wellFormed { op := 0x04, a := 0, b := 0, h := 6, c := 1, z := 0 },
      Fields.wellFormed { op := 0x04, a := 0, b := 0, h := 6, c := 0, z := 1 }] = [false, false, false, false] := by decide

/-- Format S with one nonzero unused field each (V-I9 among them). -/
theorem test_format_S_refuses :
    [Fields.wellFormed { op := 0x21, a := 1, b := 7, h := 3, c := 0, z := 0 },
      Fields.wellFormed { op := 0x21, a := 1, b := 0, h := 3, c := 1, z := 0 },
      Fields.wellFormed { op := 0x21, a := 1, b := 0, h := 3, c := 0, z := 1 }] = [false, false, false] := by decide

/-- Format R with a nonzero `z` (V-I10). -/
theorem test_format_R_refuses :
    Fields.wellFormed { op := 0x20, a := 1, b := 3, h := 0, c := 0x0A, z := 1 } = false := by decide

/-! ### Decoding: words written out from R79 and R80, one per command -/

theorem test_decode_crcinit : decode 0x0100000000000000 = .ok .crcinit := by decide

theorem test_decode_crcbyte : decode 0x0200C50000000000 = .ok (.crcbyte 0xC5) := by decide

theorem test_decode_crc16 : decode 0x0300000000000000 = .ok .crc16 := by decide

theorem test_decode_crc16n : decode 0x040000FFFF000000 = .ok (.crc16n 65535) := by decide

theorem test_decode_inclr : decode 0x1000000000000000 = .ok .inclr := by decide

theorem test_decode_inpush : decode 0x1100E60000000000 = .ok (.inpush 0xE6) := by decide

theorem test_decode_encreq : decode 0x2001831234ABCD00 = .ok (.encreq 0x01 0x83 0x1234 0xABCD) := by decide

theorem test_decode_enccmd : decode 0x2107000003000000 = .ok (.enccmd 0x07 3) := by decide

theorem test_decode_decode : decode 0x3000000000000000 = .ok .decode := by decide

theorem test_decode_extract : decode 0x3100000000000000 = .ok .extract := by decide

/-- V-I1 to V-I11 and V-I15: the illegal words. -/
theorem test_illegal_words :
    ([0x0000000000000000, 0x0500000000000000, 0xFF00000000000000, 0xB100000000000000, 0x0101000000000000,
      0x0200050001000000, 0x0300000000000001, 0x0400000006000100, 0x2101070003000000, 0x2001030000000A01,
      0x3000000000000001, 0x04FFFF0000000000].all fun w => (decode w).toOption.isNone) = true := by decide

/-- The encoder against the words of vectors V-E1, V-E7, V-C25 and V-B2. -/
theorem test_encode :
    [encode (.encreq 0x01 0x03 0x0000 0x000A), encode (.enccmd 0x01 3), encode (.crc16n 6), encode (.inpush 0x40)] =
      [0x2001030000000A00, 0x2101000003000000, 0x0400000006000000, 0x1100400000000000] := by decide

theorem test_decodeTableWord :
    decodeTableWord 64 0x2001030000000A00 = some (.encreq 0x01 0x03 0x0000 0x000A) ∧
      decodeTableWord 64 0x0500000000000000 = none := by decide

/-! ### The CRC Engine -/

/-- V-C1 to V-C7. -/
theorem test_crcBit :
    ([0x0000, 0x0001, 0x0002, 0x8000, 0xFFFF, 0xFFFE, 0xA001].map crcBit) =
      [0x0000, 0xA001, 0x0001, 0x4000, 0xDFFE, 0x7FFF, 0xF001] := by decide

/-- V-C8a to V-C8f. -/
theorem test_crcByte :
    [crcByte 0xFFFF 0x01, crcByte 0xFFFF 0x00, crcByte 0xFFFF 0xFF, crcByte 0x0000 0x00, crcByte 0x0000 0x01,
      crcByte 0x0001 0x00] = [0x807E, 0x40BF, 0x00FF, 0x0000, 0xC0C1, 0xC0C1] := by decide +kernel

/-- V-C9: the published check value. -/
theorem test_crc16_check_value :
    crc16 [0x31, 0x32, 0x33, 0x34, 0x35, 0x36, 0x37, 0x38, 0x39] = 0x4B37 := by decide +kernel

/-- V-C10a, V-C10e, V-C10f, V-C10h. -/
theorem test_crc16 :
    [crc16 [], crc16 [0xFF, 0xFF], crc16 [0x00, 0x00], crc16 [0x01, 0x03, 0x00, 0x00, 0x00, 0x0A]] =
      [0xFFFF, 0x0000, 0xB001, 0xCDC5] := by decide +kernel

/-- V-C11. -/
theorem test_crcinit : nextOf (exec .crcinit { State.reset with crc := 0x1234 }) = some State.reset := by decide

/-- V-C12, by a step from reset. -/
theorem test_crcbyte :
    nextOf (step (State.reset.withFetchWord 64 0x0200010000000000)) = some { State.reset with crc := 0x807E } := by
  decide +kernel

/-- V-C26: the zero residue. -/
theorem test_crc16_command :
    nextOf (exec .crc16 (withIn [0x01, 0x03, 0x00, 0x00, 0x00, 0x0A, 0xC5, 0xCD])) =
      some { withIn [0x01, 0x03, 0x00, 0x00, 0x00, 0x0A, 0xC5, 0xCD] with crc := 0x0000 } := by decide +kernel

/-- V-C25. -/
theorem test_crc16n :
    nextOf (exec (.crc16n 6) (withIn [0x01, 0x03, 0x00, 0x00, 0x00, 0x0A, 0xC5, 0xCD])) =
      some { withIn [0x01, 0x03, 0x00, 0x00, 0x00, 0x0A, 0xC5, 0xCD] with crc := 0xCDC5 } := by decide +kernel

/-- V-C24. -/
theorem test_crc16n_too_long :
    nextOf (exec (.crc16n 10)
        { withIn [0x31, 0x32, 0x33, 0x34, 0x35, 0x36, 0x37, 0x38, 0x39] with crc := 0x4B37 }) =
      some { withIn [0x31, 0x32, 0x33, 0x34, 0x35, 0x36, 0x37, 0x38, 0x39] with
        crc := 0x4B37, err := .invalidArgument } := by decide

/-! ### The buffer commands -/

/-- V-B3 and V-B6: the frame survives. -/
theorem test_inclr : nextOf (exec .inclr full) = some { full with input := [] } := by decide

/-- V-B2. -/
theorem test_inpush : nextOf (exec (.inpush 0x40) (withIn [0x01, 0x03])) = some (withIn [0x01, 0x03, 0x40]) := by decide

/-! ### The Frame Codec -/

/-- V-E6. -/
theorem test_encreq :
    nextOf (exec (.encreq 0x01 0x83 0x1234 0xABCD) State.reset) =
      some { State.reset with
        out := some [0x01, 0x83, 0x12, 0x34, 0xAB, 0xCD, 0xBE, 0x07], crc := 0x07BE } := by decide +kernel

/-- V-E13. -/
theorem test_enccmd :
    nextOf (exec (.enccmd 0x07 3) (withIn [0x68, 0x27, 0x40, 0x00, 0x0A])) =
      some { withIn [0x68, 0x27, 0x40, 0x00, 0x0A] with
        out := some [0x07, 0x68, 0x27, 0x40, 0x00, 0x0A, 0xEB, 0x02], crc := 0x02EB } := by decide +kernel

/-- V-E14: an empty header. -/
theorem test_enccmd_empty_header :
    nextOf (exec (.enccmd 0x01 0) full) = some { full with out := none, err := .invalidArgument } := by decide

/-- V-D2 (an exception frame), by a step from the loaded bytes. -/
theorem test_decode_exception :
    nextOf (exec .decode (withIn [0x01, 0x83, 0x02, 0xC0, 0xF1])) =
      some { withIn [0x01, 0x83, 0x02, 0xC0, 0xF1] with
        crc := 0xF1C0
        frame := some
          { frame := { slaveAddress := 0x01, functionCode := 0x83, data := [0x02], crc := 0xF1C0, crcValid := true }
            exc := true } } := by decide +kernel

/-- V-D6: the CRC bytes swapped; and the registers of an older frame are gone (V-D19). -/
theorem test_decode_wrong_crc :
    nextOf (exec .decode { full with input := [0x01, 0x03, 0x00, 0x00, 0x00, 0x0A, 0xCD, 0xC5] }) =
      some { full with
        crc := 0xCDC5
        input := [0x01, 0x03, 0x00, 0x00, 0x00, 0x0A, 0xCD, 0xC5]
        frame := some
          { frame :=
              { slaveAddress := 0x01, functionCode := 0x03, data := [0x00, 0x00, 0x00, 0x0A], crc := 0xC5CD
                crcValid := false }
            exc := false }
        regs := none } := by decide +kernel

/-! ### The Register Extractor -/

/-- V-X1 to V-X9: every length from 0 to 5. -/
theorem test_extractRegisters :
    ([[], [0x55], [0x00, 0x00], [0x01, 0x00], [0x02, 0x55], [0xFF, 0xFF], [0x00, 0x01, 0x02], [0x02, 0x01, 0x02],
      [0x04, 0x00, 0xE6, 0x04, 0xD2]].map extractRegisters) =
      [[], [], [0x0000], [], [0x0255], [0xFFFF], [0x0001], [0x0102], [0x00E6, 0x04D2]] := by decide

/-- V-X13 to V-X15: the misfires of the heuristic. -/
theorem test_extractRegisters_misfires :
    ([[0x03, 0xE8, 0x00, 0x01], [0x01, 0x55], [0x05, 0x01, 0x02, 0x03, 0x04, 0x05]].map extractRegisters) =
      [[0xE800], [], [0x0102, 0x0304]] := by decide

/-- V-X19. -/
theorem test_extract : nextOf (exec .extract { full with regs := none }) = some full := by decide

/-- V-X22. -/
theorem test_extract_no_frame :
    nextOf (exec .extract State.reset) = some { State.reset with err := .noFrame } := by decide

/-! ### Illegal words and the host -/

/-- V-I7 on a state with every group valid. -/
theorem test_illegal_word :
    nextOf (step (full.withFetchWord 64 0x0300000000000001)) = some { full with err := .illegalCommand } := by decide

/-- The numbers of the codes (R191). -/
theorem test_err_codes :
    ([ErrCode.ok, .malformedFrame, .invalidArgument, .illegalCommand, .capacity, .noFrame].map ErrCode.code) =
      [0, 1, 2, 3, 4, 5] := by decide

/-- Reads of valid places (V-D14, V-X19, V-E1) and of `⊥` (R57). -/
theorem test_host_reads :
    ([Loc.fDlen, .fData 2, .fData 3, .fExc, .regsLen, .regsWord 0, .regsWord 1, .outLen, .outByte 7, .outByte 8,
      .inByte 6, .inByte 7].map fun l => hostRead l full) =
      [some 3, some 0xD2, none, some 0, some 1, some 0x04D2, none, some 8, some 0xCD, none, some 0xD9, none] := by decide

/-- The frame registers of a parsed frame, each its own (the frame of R142's form in `full`: slave 01, function code 03,
CRC bytes 3A D9). -/
theorem test_host_reads_frame_registers :
    ([Loc.fSlave, .fFc, .fCrc, .fCrcValid].map fun l => hostRead l full) =
      [some 0x01, some 0x03, some 0xD93A, some 1] := by decide

/-- The numbers read at `ERR` (R191). -/
theorem test_host_reads_err :
    ([ErrCode.ok, .malformedFrame, .invalidArgument, .illegalCommand, .capacity, .noFrame].map fun e =>
      hostRead .err { full with err := e }) = [some 0, some 1, some 2, some 3, some 4, some 5] := by decide

/-! ### Witnesses: the hypotheses of the statements can be met -/

theorem full_inv : full.Inv := by
  refine ⟨⟨by decide, by decide, by decide, ?_⟩, by decide +kernel, by decide⟩
  have h := Config.eight_le_bufCap
  simp [full, Config.regsCap]
  omega

theorem full_outOk : OutOk full := by decide +kernel

/-- For EveryStepKeepsTheInvariant and EveryPlaceFitsItsWidth: every group is valid, and the step is a `DECODE`. -/
theorem witness_step_from_an_invariant_state :
    (full.present 0x3000000000000000).Inv ∧ Memory.wf (full.present 0x3000000000000000) ∧
      (∃ t, step (full.present 0x3000000000000000) = .next t) ∧
      hostRead (.regsWord 0) (full.present 0x3000000000000000) = some 0x04D2 :=
  ⟨full_inv, full_inv.1, ⟨_, rfl⟩, by decide⟩

/-- For EveryStepKeepsAWireFrameInOut. -/
theorem witness_step_from_a_built_frame :
    OutOk (full.present 0x2001030000000A00) ∧ ∃ t, step (full.present 0x2001030000000A00) = .next t :=
  ⟨full_outOk, ⟨_, rfl⟩⟩

/-- For DecodableWordIsItsEncoding and StepRunsTheDecodedCommand. -/
theorem witness_decodable_word :
    (presented 0x2001030000000A00).pending = .present 0x2001030000000A00 :: [] ∧
      decode 0x2001030000000A00 = .ok (.encreq 0x01 0x03 0x0000 0x000A) := by decide

/-- For IllegalWordOnlySetsErr, StreamIsNotDisturbed and ErrorCodesHaveExactlyTheirCauses (their second parts) and
ErrIsOverwrittenByEveryWord. -/
theorem witness_illegal_word :
    (presented 0x3000000000000001).pending = .present 0x3000000000000001 :: [] ∧
      (Fields.ofWord 0x3000000000000001).wellFormed = false ∧ (∀ i, decode 0x3000000000000001 ≠ .ok i) ∧
      ∃ t, step (presented 0x3000000000000001) = .next t := by
  refine ⟨by decide, by decide, fun i h => ?_, ⟨_, rfl⟩⟩
  have hd : decode 0x3000000000000001 = .error (.unusedFieldNotZero 0x30) := by decide
  rw [hd] at h
  cases h

/-- For CrcBitShiftsRightWithFeedback: a value for each part, and the bits at the ends of the range. -/
theorem witness_crcBit :
    (0x0001 : Word).getLsbD 0 = true ∧ (0x8000 : Word).getLsbD 0 = false ∧ (1 < 15 ∧ 1 ≠ 13 ∧ 1 ≠ 0) ∧
      (14 < 15 ∧ 14 ≠ 13 ∧ 14 ≠ 0) := by decide

/-- For SingleBitFlipChangesTheCrc: the last bit of the last byte (V-C16). -/
theorem witness_single_bit_flip :
    5 < ([0x01, 0x03, 0x00, 0x00, 0x00, 0x0A] : List Byte).length ∧ 7 < 8 ∧
      crc16 (([0x01, 0x03, 0x00, 0x00, 0x00, 0x0A] : List Byte).set 5 (0x0A ^^^ (1#8 <<< 7))) = 0x6DC4 := by
  decide +kernel

/-- For Crc16ChecksumsTheWholeInput and Crc16nChecksumsAPrefix: no byte, all bytes, one byte too many, from `IN` of 7. -/
theorem witness_crc16n :
    State.reset.input = [] ∧ (0 : Word).toNat ≤ full.input.length ∧ (7 : Word).toNat = full.input.length ∧
      full.input.length < (8 : Word).toNat := by decide

/-- For InpushAppendsUnlessFull and InpushStoresOneByteAtInLen: a buffer with room and a full one. -/
theorem witness_inpush :
    full.input.length < Config.bufCap ∧
      (withIn (List.replicate Config.bufCap 0)).input.length = Config.bufCap := by
  refine ⟨by decide, ?_⟩
  simp [withIn]

/-- For InloadLeavesTheBytesInInput and FunctionCallsRunOnTheBlock: eight bytes fit every `BUF_CAP`. -/
theorem witness_loads :
    (List.replicate 8 (0 : Byte)).length ≤ Config.bufCap ∧ (8 : Word).toNat ≤ (List.replicate 8 (0 : Byte)).length ∧
      goodFrame.length ≤ Config.bufCap ∧
      ((0x68 :: [0x27, 0x40] : List Byte) ++ [0x00, 0x0A]).length ≤ Config.bufCap ∧
      decodeFrame goodFrame =
        .ok { slaveAddress := 0x01, functionCode := 0x03, data := [0x02, 0x04, 0xD2], crc := 0xD93A, crcValid := true } :=
  ⟨by decide, by decide, by decide, by decide, by decide +kernel⟩

/-- For RequestFrameHoldsItsOperands (its second part): the same operands twice. -/
theorem witness_equal_requests : encodeRequest 0x01 0x03 0x0000 0x000A = encodeRequest 0x01 0x03 0x0000 0x000A := rfl

/-- For EnccmdBuildsACommandFrameOrRefuses and HostReadsTheBuiltFrame: `hlen` 1 and `IN_LEN`, 0 and `IN_LEN + 1`. -/
theorem witness_enccmd :
    (1 ≤ (1 : Word).toNat ∧ (1 : Word).toNat ≤ full.input.length) ∧
      (1 ≤ (7 : Word).toNat ∧ (7 : Word).toNat ≤ full.input.length) ∧
      ((0 : Word).toNat = 0 ∨ full.input.length < (0 : Word).toNat) ∧
      ((8 : Word).toNat = 0 ∨ full.input.length < (8 : Word).toNat) := by decide

/-- For CommandFrameHoldsHeaderAndPayload: the shortest header. -/
theorem witness_header : ([0x68] : List Byte) ≠ [] := by decide

/-- For RequestIsASpecialCommand: V-E18. -/
theorem witness_special_command :
    (withIn [0x03, 0x00, 0x00, 0x00, 0x0A]).input =
      [0x03, hi8 0x0000, lo8 0x0000, hi8 0x000A, lo8 0x000A] := by decide

/-- For DecodeFrameReadsFixedPositions, DecodeWritesTheFrameGroup and HostReadsTheParsedFrame: three bytes and four (V-D4, V-D12). -/
theorem witness_frame_lengths :
    (withIn [0x01, 0x03, 0x40]).input.length < 4 ∧ 4 ≤ (withIn [0x01, 0x03, 0x40, 0x21]).input.length := by decide

/-- For ParsingLosesNothing and ZeroResidueExactlyForTheRightCrc: V-D12, a right CRC. -/
theorem witness_valid_frame :
    ∃ f, decodeFrame [0x01, 0x03, 0x40, 0x21] = .ok f ∧ f.crcValid = true :=
  ⟨{ slaveAddress := 0x01, functionCode := 0x03, data := [], crc := 0x2140, crcValid := true }, by decide +kernel, rfl⟩

/-- For CheckingByHandAgreesWithDecode: the shortest frame. -/
theorem witness_check_by_hand :
    4 ≤ (withIn [0x01, 0x03, 0x40, 0x21]).input.length ∧
      (withIn [0x01, 0x03, 0x40, 0x21]).input.length ≤ Config.bufCap := by decide

/-- For RegistersAreBigEndianPairs: one byte, two bytes, and an index below the count. -/
theorem witness_registers :
    ([0x55] : List Byte).length < 2 ∧ 1 ≤ ([0x00] : List Byte).length ∧
      0 < (((0x02 : Byte) :: [0x55]).length - 0) / 2 := by decide

/-- For PrefixedAndPlainPayloadsAgree: the bytes of R167's example and of R166's first row, with their pairs. -/
theorem witness_payloads :
    let good : List Byte := [0x00, 0xE6, 0x04, 0xD2]
    let bad : List Byte := [0x03, 0xE8, 0x00, 0x01]
    (1 ≤ 2 ∧ good.length = 2 * 2 ∧ bad.length = 2 * 2 ∧ 2 * 2 ≤ 255) ∧
      (good[0]? = some 0x00 ∧ (0x00 : Byte).toNat ≠ 2 * 2 - 1) ∧
      (bad[0]? = some 0x03 ∧ (0x03 : Byte).toNat = 2 * 2 - 1) ∧
      (∀ j : Nat, j < 2 → ∃ hi lo : Byte, good[2 * j]? = some hi ∧ good[2 * j + 1]? = some lo ∧
        ([0x00E6, 0x04D2] : List Word)[j]? = some ((hi.setWidth 16 <<< 8) ||| lo.setWidth 16)) ∧
      ∀ j : Nat, j < 2 → ∃ hi lo : Byte, bad[2 * j]? = some hi ∧ bad[2 * j + 1]? = some lo ∧
        ([0x03E8, 0x0001] : List Word)[j]? = some ((hi.setWidth 16 <<< 8) ||| lo.setWidth 16) := by
  refine ⟨by decide, by decide, by decide, fun j hj => ?_, fun j hj => ?_⟩ <;>
    obtain rfl | rfl : j = 0 ∨ j = 1 := by omega
  all_goals exact ⟨_, _, rfl, rfl, rfl⟩

/-- For PrefixedAndPlainPayloadsAgree: the longest payload a byte count can stand for. -/
theorem witness_longest_prefixed_payload :
    (List.replicate 254 (0 : Byte)).length = 2 * 127 ∧ (List.replicate 127 (0 : Word)).length = 127 ∧ 2 * 127 ≤ 255 :=
  ⟨List.length_replicate, List.length_replicate, by omega⟩

/-- For ParsingABuiltFrameRoundTrips: the start of R166's last row. -/
theorem witness_start_that_looks_like_a_byte_count : (0x03E8 : Word).extractLsb' 8 8 = 3 := by decide

/-- For ExtractWritesTheRegsGroup: no frame, and a frame. -/
theorem witness_extract :
    State.reset.frame = none ∧
      full.frame = some
        { frame :=
            { slaveAddress := 0x01, functionCode := 0x03, data := [0x02, 0x04, 0xD2], crc := 0xD93A, crcValid := true }
          exc := false } := by decide

/-- For ErrorCodesHaveExactlyTheirCauses (its first part) and FailingCommandWritesOnlyErrAndValidBits: a failure of each code a command can
raise. -/
theorem witness_failures :
    (∃ t, exec .decode State.reset = .next t ∧ t.err = .malformedFrame) ∧
      (∃ t, exec (.enccmd 0x01 0) full = .next t ∧ t.err = .invalidArgument) ∧
      (∃ t, exec (.crc16n 1) State.reset = .next t ∧ t.err = .invalidArgument) ∧
      (∃ t, exec (.inpush 0xAA) (withIn (List.replicate Config.bufCap 0)) = .next t ∧ t.err = .capacity) ∧
      ∃ t, exec .extract State.reset = .next t ∧ t.err = .noFrame := by
  refine ⟨⟨_, rfl, rfl⟩, ⟨_, rfl, rfl⟩, ⟨_, rfl, rfl⟩, ?_, ⟨_, rfl, rfl⟩⟩
  exact ⟨_, if_pos (by simp [withIn, State.inLen]), rfl⟩

/-- For CommandsWriteOnlyTheirGroups: a success and a failure, each with a place outside the groups it writes. -/
theorem witness_unwritten_places :
    (∃ t, exec .extract full = .next t ∧
      Loc.group (.outByte 7) ∉ (if t.err = .ok then successWrites .extract else failWrites .extract)) ∧
      ∃ t, exec (.enccmd 0x01 0) full = .next t ∧
        Loc.group .crc ∉ (if t.err = .ok then successWrites (.enccmd 0x01 0) else failWrites (.enccmd 0x01 0)) :=
  ⟨⟨_, rfl, by decide⟩, ⟨_, rfl, by decide⟩⟩

/-- For CommandsIgnoreTheFrameFlags, StreamIsNotDisturbed (its first part) and RepeatedCommandLeavesTheSameState. -/
theorem witness_extract_from_a_frame :
    (∃ g t, full.frame = some g ∧ exec .extract full = .next t) ∧ (∀ b, Instr.extract ≠ .crcbyte b) ∧
      ∀ b, Instr.extract ≠ .inpush b :=
  ⟨⟨_, _, rfl, rfl⟩, by simp, by simp⟩

/-- For HostReadHasNoSideEffect and MachineStopsOnlyAtAReadOfNoValue: a read of a value and one of `⊥`. -/
theorem witness_host_reads :
    (full.setPending [.read (.regsWord 0)]).pending = .read (.regsWord 0) :: [] ∧
      hostRead (.regsWord 0) full = some 0x04D2 ∧ hostRead (.regsWord 1) full = none ∧
      step (full.setPending [.read (.regsWord 1)]) = .refused (.readOfNoValue (.regsWord 1)) :=
  ⟨by decide, by decide, by decide, rfl⟩

/-- For HostReadsTheValueOfEachPlace: a state in which every group is valid, with the last index of each buffer, and one in
which none is. -/
theorem witness_values :
    6 < full.input.length ∧ (∃ f, full.out = some f ∧ 7 < f.length) ∧
      (∃ g, full.frame = some g ∧ 2 < g.frame.data.length) ∧ (∃ r, full.regs = some r ∧ 0 < r.length) ∧
      State.reset.out = none ∧ State.reset.frame = none ∧ State.reset.regs = none :=
  ⟨by decide, ⟨_, rfl, by decide⟩, ⟨_, rfl, by decide⟩, ⟨_, rfl, by decide⟩, rfl, rfl, rfl⟩

/-- A parsed frame with these data bytes. -/
def parsed (data : List Byte) : FrameRegs :=
  { frame := { slaveAddress := 0x01, functionCode := 0x03, data := data, crc := 0, crcValid := false }, exc := false }

/-- For HostReadsTheExtractedRegisters: one data byte, two, and three with a byte count, with a register. -/
theorem witness_frame_data :
    (∀ data, { State.reset with frame := some (parsed data) }.frame = some (parsed data)) ∧
      (parsed [0x55]).frame.data.length < 2 ∧ 2 ≤ (parsed [0x02, 0x55]).frame.data.length ∧
      2 ≤ (parsed [0x02, 0x01, 0x02]).frame.data.length ∧ 0 < (2 - 0) / 2 ∧ 0 < (3 - 1) / 2 ∧
      hostRead (.fData 0) { State.reset with frame := some (parsed [0x02, 0x55]) } ≠ some (2 - 1) ∧
      hostRead (.fData 0) { State.reset with frame := some (parsed [0x02, 0x01, 0x02]) } = some (3 - 1) :=
  ⟨fun _ => rfl, by decide, by decide, by decide, by decide, by decide, by decide, by decide⟩

/-- For ResetRestoresTheTable and CommandsOnTheResetState. -/
theorem witness_reset :
    (full.setPending [.reset]).pending = .reset :: [] ∧ 1 ≤ (1 : Word).toNat ∧
      nextOf (step (full.setPending [.reset])) = some State.reset := by decide

end Sys2Proof.Tests
end

section
/-! PROOF. What each command does, an equation per case and one inversion lemma for all commands; the frame of a
command; what one step can do; and the statements about the block's state (spec/10_state.md). -/

namespace Sys2Proof.Machine

variable {s t : State} {i : Instr}

/-! ### The frame codec's functions -/

/-- The bytes before the CRC field of a built frame are those it was built from (R70). -/
theorem take_sealFrame (body : List Byte) :
    (sealFrame body).take ((sealFrame body).length - 2) = body := by
  rw [length_sealFrame, Nat.add_sub_cancel, sealFrame, List.take_left]

@[simp] theorem sealedCrc_sealFrame (body : List Byte) : sealedCrc (sealFrame body) = crc16 body := by
  rw [sealedCrc, slice_zero, take_sealFrame]

theorem encodeCommand_of_ne_nil (slave : Byte) {header : List Byte} (h : header.length ≠ 0) (payload : List Byte) :
    encodeCommand slave header payload = .ok (sealFrame (slave :: (header ++ payload))) := by
  rw [encodeCommand, if_neg h]

theorem decodeFrame_of_short {raw : List Byte} (h : raw.length < 4) : decodeFrame raw = .error .malformedFrame := by
  rw [decodeFrame, dif_pos h]

/-- R140, R141: what a Frame holds of the bytes it was parsed from: all before the CRC field, and whether the CRC over
them is the received one. -/
theorem decodeFrame_ok {raw : List Byte} {f : Frame} (h : decodeFrame raw = .ok f) :
    4 ≤ raw.length ∧ raw.take (raw.length - 2) = f.slaveAddress :: f.functionCode :: f.data ∧
      f.crcValid = crcMatches f.crc (crc16 (raw.take (raw.length - 2))) := by
  unfold decodeFrame at h
  split at h
  · cases h
  · next hlong =>
    cases h
    match raw, hlong with
    | [], hlong | [_], hlong | [_, _], hlong | [_, _, _], hlong => exact absurd (by simp) hlong
    | _ :: _ :: _ :: _ :: _, _ => simp [slice]

theorem decodeFrame_exists {raw : List Byte} (h : 4 ≤ raw.length) : ∃ f, decodeFrame raw = .ok f := by
  rw [decodeFrame, dif_neg (Nat.not_lt.mpr h)]
  exact ⟨_, rfl⟩

theorem length_data_of_decodeFrame {raw : List Byte} {f : Frame} (h : decodeFrame raw = .ok f) :
    f.data.length = raw.length - 4 := by
  obtain ⟨_, htake, -⟩ := decodeFrame_ok h
  have hlen := congrArg List.length htake
  simp only [List.length_take, List.length_cons] at hlen
  omega

theorem crcMatches_iff {received computed : Word} : crcMatches received computed = true ↔ computed = received := by
  rw [crcMatches, beq_iff_eq, eq_comm]

/-! ### What each command does: an equation per case -/

theorem exec_crc16n_of_le {n : Word} (h : n.toNat ≤ s.input.length) :
    exec (.crc16n n) s = .next ((s.setCrc (crc16 (s.input.take n.toNat))).setErr .ok) := by
  rw [exec, execCrc16n, if_neg (Nat.not_lt.mpr h), State.inPrefix_eq, finish]

theorem exec_crc16n_of_lt {n : Word} (h : s.input.length < n.toNat) :
    exec (.crc16n n) s = .next (s.setErr .invalidArgument) :=
  if_pos h

theorem exec_inpush_of_room (b : Byte) (h : s.inLen ≠ Config.bufCap) :
    exec (.inpush b) s = .next ((s.setInput (s.input ++ [b])).setErr .ok) :=
  if_neg h

theorem exec_inpush_of_full (b : Byte) (h : s.inLen = Config.bufCap) :
    exec (.inpush b) s = .next (s.setErr .capacity) :=
  if_pos h

theorem exec_encreq (slave fc : Byte) (start count : Word) (s : State) :
    exec (.encreq slave fc start count) s =
      .next (((s.setOut (some (encodeRequest slave fc start count))).setCrc
        (crc16 [slave, fc, hi8 start, lo8 start, hi8 count, lo8 count])).setErr .ok) := by
  simp only [exec, execEncreq, encodeRequest, sealedCrc_sealFrame, finish]

theorem exec_enccmd_of_fits (slave : Byte) {hlen : Word} (hpos : hlen.toNat ≠ 0) (hle : hlen.toNat ≤ s.input.length) :
    exec (.enccmd slave hlen) s =
      .next (((s.setOut (some (sealFrame (slave :: s.input)))).setCrc (crc16 (slave :: s.input))).setErr .ok) := by
  have hfits : ¬ (hlen.toNat = 0 ∨ s.inLen < hlen.toNat) := not_or.mpr ⟨hpos, Nat.not_lt.mpr hle⟩
  have hheader : (s.inPrefix hlen.toNat).length ≠ 0 := by
    rw [State.inPrefix_eq, List.length_take_of_le hle]
    exact hpos
  simp only [exec, execEnccmd, if_neg hfits, encodeCommand_of_ne_nil slave hheader, State.inPrefix_append_inRest,
    sealedCrc_sealFrame, finish]

theorem exec_enccmd_of_not_fits (slave : Byte) {hlen : Word} (h : hlen.toNat = 0 ∨ s.input.length < hlen.toNat) :
    exec (.enccmd slave hlen) s = .next ((s.setOut none).setErr .invalidArgument) :=
  if_pos h

theorem exec_decode_of_ok {f : Frame} (h : decodeFrame s.input = .ok f) :
    exec .decode s = .next ((((s.setRegs none).setFrame (some { frame := f, exc := excFlag f.functionCode })).setCrc
      (crc16 (s.input.take (s.input.length - 2)))).setErr .ok) := by
  simp only [exec, execDecode, h, State.inPrefix_eq, finish]

theorem exec_decode_of_short (h : s.input.length < 4) :
    exec .decode s = .next (((s.setFrame none).setRegs none).setErr .malformedFrame) := by
  simp only [exec, execDecode, decodeFrame_of_short h, raise, State.invalidate_frameAndRegs]

theorem exec_extract_of_some {g : FrameRegs} (h : s.frame = some g) :
    exec .extract s = .next ((s.setRegs (some (extractRegisters g.frame.data))).setErr .ok) := by
  simp only [exec, execExtract, h, finish]

theorem exec_extract_of_none (h : s.frame = none) : exec .extract s = .next ((s.setRegs none).setErr .noFrame) := by
  simp only [exec, execExtract, h, raise, State.invalidate_regsGroup]

/-- What a command can do: the next state for each command, and for each way a command can fail. -/
inductive CommandEffect (s : State) : Instr → State → Prop where
  | crcinit : CommandEffect s .crcinit ((s.setCrc crcInit).setErr .ok)
  | crcbyte (b : Byte) : CommandEffect s (.crcbyte b) ((s.setCrc (crcByte s.crc b)).setErr .ok)
  | crc16 : CommandEffect s .crc16 ((s.setCrc (crc16 s.input)).setErr .ok)
  | crc16n (n : Word) (hle : n.toNat ≤ s.input.length) :
      CommandEffect s (.crc16n n) ((s.setCrc (Machine.crc16 (s.input.take n.toNat))).setErr .ok)
  | crc16nFails (n : Word) (hlt : s.input.length < n.toNat) :
      CommandEffect s (.crc16n n) (s.setErr .invalidArgument)
  | inclr : CommandEffect s .inclr ((s.setInput []).setErr .ok)
  | inpush (b : Byte) (hroom : s.inLen ≠ Config.bufCap) :
      CommandEffect s (.inpush b) ((s.setInput (s.input ++ [b])).setErr .ok)
  | inpushFails (b : Byte) (hfull : s.inLen = Config.bufCap) : CommandEffect s (.inpush b) (s.setErr .capacity)
  | encreq (slave fc : Byte) (start count : Word) :
      CommandEffect s (.encreq slave fc start count)
        (((s.setOut (some (encodeRequest slave fc start count))).setCrc
          (Machine.crc16 [slave, fc, hi8 start, lo8 start, hi8 count, lo8 count])).setErr .ok)
  | enccmd (slave : Byte) (hlen : Word) (hpos : hlen.toNat ≠ 0) (hle : hlen.toNat ≤ s.input.length) :
      CommandEffect s (.enccmd slave hlen)
        (((s.setOut (some (sealFrame (slave :: s.input)))).setCrc (Machine.crc16 (slave :: s.input))).setErr .ok)
  | enccmdFails (slave : Byte) (hlen : Word) (hbad : hlen.toNat = 0 ∨ s.input.length < hlen.toNat) :
      CommandEffect s (.enccmd slave hlen) ((s.setOut none).setErr .invalidArgument)
  | decode (f : Frame) (hf : decodeFrame s.input = .ok f) :
      CommandEffect s .decode
        ((((s.setRegs none).setFrame (some { frame := f, exc := excFlag f.functionCode })).setCrc
          (Machine.crc16 (s.input.take (s.input.length - 2)))).setErr .ok)
  | decodeFails (hshort : s.input.length < 4) :
      CommandEffect s .decode (((s.setFrame none).setRegs none).setErr .malformedFrame)
  | extract (g : FrameRegs) (hg : s.frame = some g) :
      CommandEffect s .extract ((s.setRegs (some (extractRegisters g.frame.data))).setErr .ok)
  | extractFails (hnone : s.frame = none) : CommandEffect s .extract ((s.setRegs none).setErr .noFrame)

theorem CommandEffect.exec_eq (h : CommandEffect s i t) : exec i s = .next t := by
  cases h with
  | crcinit | crcbyte _ | crc16 | inclr => rfl
  | crc16n _ hle => exact exec_crc16n_of_le hle
  | crc16nFails _ hlt => exact exec_crc16n_of_lt hlt
  | inpush b hroom => exact exec_inpush_of_room b hroom
  | inpushFails b hfull => exact exec_inpush_of_full b hfull
  | encreq slave fc start count => exact exec_encreq slave fc start count s
  | enccmd slave _ hpos hle => exact exec_enccmd_of_fits slave hpos hle
  | enccmdFails slave _ hbad => exact exec_enccmd_of_not_fits slave hbad
  | decode _ hf => exact exec_decode_of_ok hf
  | decodeFails hshort => exact exec_decode_of_short hshort
  | extract _ hg => exact exec_extract_of_some hg
  | extractFails hnone => exact exec_extract_of_none hnone

/-- The cases are complete: every command has an effect in every state (R190). -/
theorem CommandEffect.total (i : Instr) (s : State) : ∃ t, CommandEffect s i t := by
  cases i with
  | crcinit => exact ⟨_, .crcinit⟩
  | crcbyte b => exact ⟨_, .crcbyte b⟩
  | crc16 => exact ⟨_, .crc16⟩
  | crc16n n =>
    obtain hlt | hle := Nat.lt_or_ge s.input.length n.toNat
    · exact ⟨_, .crc16nFails n hlt⟩
    · exact ⟨_, .crc16n n hle⟩
  | inclr => exact ⟨_, .inclr⟩
  | inpush b =>
    obtain hfull | hroom := eq_or_ne s.inLen Config.bufCap
    · exact ⟨_, .inpushFails b hfull⟩
    · exact ⟨_, .inpush b hroom⟩
  | encreq slave fc start count => exact ⟨_, .encreq slave fc start count⟩
  | enccmd slave hlen =>
    by_cases hbad : hlen.toNat = 0 ∨ s.input.length < hlen.toNat
    · exact ⟨_, .enccmdFails slave hlen hbad⟩
    · obtain ⟨hpos, hle⟩ := not_or.mp hbad
      exact ⟨_, .enccmd slave hlen hpos (Nat.not_lt.mp hle)⟩
  | decode =>
    obtain hshort | hlong := Nat.lt_or_ge s.input.length 4
    · exact ⟨_, .decodeFails hshort⟩
    · obtain ⟨f, hf⟩ := decodeFrame_exists hlong
      exact ⟨_, .decode f hf⟩
  | extract =>
    cases hframe : s.frame with
    | none => exact ⟨_, .extractFails hframe⟩
    | some g => exact ⟨_, .extract g hframe⟩

/-- What a command answers is one of the cases, and each case is what it answers. -/
theorem exec_eq_next_iff : exec i s = .next t ↔ CommandEffect s i t := by
  refine ⟨fun h => ?_, CommandEffect.exec_eq⟩
  obtain ⟨u, hu⟩ := CommandEffect.total i s
  cases h.symm.trans hu.exec_eq
  exact hu

/-! ### What a command leaves unchanged (R32) -/

/-- The two states hold the same in a group of registers. -/
def Group.Same (g : Group) (s t : State) : Prop :=
  match g with
  | .crc => t.crc = s.crc
  | .input => t.input = s.input
  | .out => t.out = s.out
  | .frame => t.frame = s.frame
  | .regs => t.regs = s.regs
  | .err => t.err = s.err

/-- A host read of a place looks at the place's own group only. -/
theorem hostRead_congr {loc : Loc} (h : loc.group.Same s t) : hostRead loc t = hostRead loc s := by
  cases loc <;> simp_all [Loc.group, Group.Same, hostRead, State.inLen, State.outValid, State.fValid, State.regsValid]

/-- A group outside those of the command's row of the table of R32 holds what it held. -/
theorem CommandEffect.same_of_not_written (h : CommandEffect s i t) {g : Group}
    (hg : g ∉ (if t.err = .ok then successWrites i else failWrites i)) : g.Same s t := by
  cases h <;> cases g <;> simp [Group.Same, successWrites, failWrites] at hg ⊢

theorem exec_same_of_not_written (h : exec i s = .next t) {g : Group}
    (hg : g ∉ (if t.err = .ok then successWrites i else failWrites i)) : g.Same s t :=
  (exec_eq_next_iff.mp h).same_of_not_written hg

/-- Settles O38: a place that is not written reads as before, since its group holds what it held. -/
theorem commandsWriteOnlyTheirGroups : Obligations.CommandsWriteOnlyTheirGroups := by
  intro i s t loc h hloc
  exact hostRead_congr (exec_same_of_not_written h hloc)

/-! ### `ERR` and the frame's flags are written, never read (R30, R31) -/

theorem exec_setErr (i : Instr) (s : State) (e : ErrCode) : exec i (s.setErr e) = exec i s := by
  cases i <;> rfl

theorem presentWord_setErr (w : CmdWord) (s : State) (e : ErrCode) :
    presentWord w (s.setErr e) = presentWord w s := by
  unfold presentWord
  split
  · exact exec_setErr _ s e
  · rfl

/-! ### What one step can do -/

theorem step_of_present {w : CmdWord} {rest : List HostAction} (h : s.pending = .present w :: rest) :
    step s = presentWord w (s.setPending rest) := by
  rw [step, h]

theorem step_of_read {loc : Loc} {rest : List HostAction} (h : s.pending = .read loc :: rest) :
    step s = hostReadStep loc (s.setPending rest) := by
  rw [step, h]

theorem step_of_reset {rest : List HostAction} (h : s.pending = .reset :: rest) :
    step s = .next (resetEvent (s.setPending rest)) := by
  rw [step, h]

theorem step_of_idle (h : s.pending = []) : step s = .next s := by
  rw [step, h]

theorem presentWord_of_ok {w : CmdWord} (h : decode w = .ok i) (s : State) : presentWord w s = exec i s := by
  rw [presentWord, h]

theorem presentWord_of_error {w : CmdWord} {e : DecodeError} (h : decode w = .error e) (s : State) :
    presentWord w s = .next (s.setErr .illegalCommand) := by
  rw [presentWord, h]
  rfl

theorem hostReadStep_of_some {loc : Loc} {v : Nat} (h : hostRead loc s = some v) :
    hostReadStep loc s = .next { s with seen := s.seen ++ [(loc, v)] } := by
  rw [hostReadStep, h]

theorem hostReadStep_of_none {loc : Loc} (h : hostRead loc s = none) :
    hostReadStep loc s = .refused (.readOfNoValue loc) := by
  rw [hostReadStep, h]

/-- What one step can do, by the host's next action: nothing, a command, an illegal word, a read of a value, reset. -/
inductive StepEffect (s : State) : State → Prop where
  | idle (hp : s.pending = []) : StepEffect s s
  | command {w : CmdWord} {rest : List HostAction} {i : Instr} {t : State} (hp : s.pending = .present w :: rest)
      (hd : decode w = .ok i) (heff : CommandEffect (s.setPending rest) i t) : StepEffect s t
  | illegal {w : CmdWord} {rest : List HostAction} {e : DecodeError} (hp : s.pending = .present w :: rest)
      (hd : decode w = .error e) : StepEffect s ((s.setPending rest).setErr .illegalCommand)
  | read {loc : Loc} {rest : List HostAction} {v : Nat} (hp : s.pending = .read loc :: rest)
      (hv : hostRead loc (s.setPending rest) = some v) :
      StepEffect s { s.setPending rest with seen := s.seen ++ [(loc, v)] }
  | reset {rest : List HostAction} (hp : s.pending = .reset :: rest) : StepEffect s (resetEvent (s.setPending rest))

theorem stepEffect_of_step (h : step s = .next t) : StepEffect s t := by
  match hp : s.pending with
  | [] =>
    rw [step_of_idle hp] at h
    cases h
    exact .idle hp
  | .present w :: rest =>
    rw [step_of_present hp] at h
    cases hd : decode w with
    | ok i =>
      rw [presentWord_of_ok hd, exec_eq_next_iff] at h
      exact .command hp hd h
    | error e =>
      rw [presentWord_of_error hd] at h
      cases h
      exact .illegal hp hd
  | .read loc :: rest =>
    rw [step_of_read hp] at h
    cases hv : hostRead loc (s.setPending rest) with
    | none =>
      rw [hostReadStep_of_none hv] at h
      cases h
    | some v =>
      rw [hostReadStep_of_some hv] at h
      cases h
      exact .read hp hv
  | .reset :: rest =>
    rw [step_of_reset hp] at h
    cases h
    exact .reset hp

/-- A property of the block that does not look at `ERR` or the host's two fields, holds after reset and is kept by every
command is kept by every step. -/
theorem step_keeps {P : State → Prop}
    (hhost : ∀ s e pending seen, P s → P { s with err := e, pending := pending, seen := seen })
    (hreset : P State.reset) (hcommand : ∀ {s i t}, CommandEffect s i t → P s → P t)
    (hs : P s) (h : step s = .next t) : P t := by
  cases stepEffect_of_step h with
  | idle => exact hs
  | command _ _ heff => exact hcommand heff (hhost s s.err _ s.seen hs)
  | illegal => exact hhost s .illegalCommand _ s.seen hs
  | read => exact hhost s s.err _ _ hs
  | reset => exact hhost _ State.reset.err _ _ hreset

/-- Settles O39: a word is decoded without the state, and no command reads `ERR`. -/
theorem errIsOverwrittenByEveryWord : Obligations.ErrIsOverwrittenByEveryWord := by
  intro s w rest e hp
  rw [step_of_present hp, step_of_present (s := { s with err := e }) hp]
  exact presentWord_setErr w (s.setPending rest) e

/-! ### Which command leaves `CRC` alone (R23, R224) -/

theorem crc_not_mem_failWrites (i : Instr) : Group.crc ∉ failWrites i := by
  cases i <;> simp [failWrites]

/-- Settles O41: the column of `CRC` in the table of R32 is empty for these commands and for every failure. -/
theorem streamIsNotDisturbed : Obligations.StreamIsNotDisturbed := by
  refine ⟨fun i s t h hi => exec_same_of_not_written (g := .crc) h ?_, fun s t w rest hp hd h => ?_⟩
  · split
    · next hok =>
      obtain rfl | ⟨b, rfl⟩ | rfl | hfail := hi
      · simp [successWrites]
      · simp [successWrites]
      · simp [successWrites]
      · exact absurd hok hfail
    · exact crc_not_mem_failWrites i
  · rw [step_of_present hp] at h
    cases hw : decode w with
    | ok i => exact absurd hw (hd i)
    | error e =>
      rw [presentWord_of_error hw] at h
      cases h
      rfl

/-- With other frame registers that hold the same data, a command other than `DECODE` has the same effect on all else. -/
theorem CommandEffect.setFrame_of_same_data (h : CommandEffect s i t) (hi : i ≠ .decode) {g g' : FrameRegs}
    (hg : s.frame = some g) (hdata : g'.frame.data = g.frame.data) :
    CommandEffect (s.setFrame (some g')) i (t.setFrame (some g')) := by
  cases h with
  | crcinit => exact .crcinit
  | crcbyte b => exact .crcbyte b
  | crc16 => exact .crc16
  | crc16n n hle => exact .crc16n n hle
  | crc16nFails n hlt => exact .crc16nFails n hlt
  | inclr => exact .inclr
  | inpush b hroom => exact .inpush b hroom
  | inpushFails b hfull => exact .inpushFails b hfull
  | encreq slave fc start count => exact .encreq slave fc start count
  | enccmd slave hlen hpos hle => exact .enccmd slave hlen hpos hle
  | enccmdFails slave hlen hbad => exact .enccmdFails slave hlen hbad
  | decode | decodeFails => exact absurd rfl hi
  | extract f hf =>
    cases hg.symm.trans hf
    rw [← hdata]
    exact .extract g' rfl
  | extractFails hnone => cases hg.symm.trans hnone

theorem frame_not_written_of_ne_decode (hi : i ≠ .decode) (e : ErrCode) :
    Group.frame ∉ (if e = .ok then successWrites i else failWrites i) := by
  cases i <;> split <;> simp_all [successWrites, failWrites]

/-- `DECODE` overwrites the frame group and reads nothing of it (R142). -/
theorem exec_decode_setFrame (s : State) (v : Option FrameRegs) : exec .decode (s.setFrame v) = exec .decode s := rfl

/-- Settles O40: `DECODE` does not read the frame group, `EXTRACT` only its data, and the other commands keep it
unread. -/
theorem commandsIgnoreTheFrameFlags : Obligations.CommandsIgnoreTheFrameFlags := by
  intro i s t g v e hg h
  by_cases hi : i = .decode
  · subst hi
    exact ⟨t, (exec_decode_setFrame s _).trans h, rfl, fun _ => rfl, fun hne => absurd rfl hne⟩
  · have hkept : t.frame = s.frame :=
      exec_same_of_not_written (g := .frame) h (frame_not_written_of_ne_decode hi t.err)
    have hflags := (exec_eq_next_iff.mp h).setFrame_of_same_data hi hg
      (g' := { frame := { g.frame with crcValid := v }, exc := e }) rfl
    exact ⟨_, hflags.exec_eq, rfl, fun hdec => absurd hdec hi, fun _ => ⟨hkept.trans hg, rfl⟩⟩

/-! ### The invariants of the block (R25, R27, R28, R50) -/

/-- A buffer that holds a parsed frame within the capacities has data within `FDATA_CAP` (R7, R50). -/
theorem length_data_le_fdataCap {raw : List Byte} {f : Frame} (h : decodeFrame raw = .ok f)
    (hraw : raw.length ≤ Config.bufCap) : f.data.length ≤ Config.fdataCap := by
  rw [length_data_of_decodeFrame h, Config.fdataCap_eq]
  exact Nat.sub_le_sub_right hraw 4

theorem length_extractRegisters_le_regsCap {data : List Byte} (h : data.length ≤ Config.fdataCap) :
    (extractRegisters data).length ≤ Config.regsCap :=
  (length_extractRegisters_le data).trans (Nat.div_le_div_right h)

theorem length_encodeRequest (slave fc : Byte) (start count : Word) :
    (encodeRequest slave fc start count).length = 8 := by
  rw [encodeRequest, length_sealFrame]
  rfl

theorem CommandEffect.keeps_wf (h : CommandEffect s i t) (hs : Memory.wf s) : Memory.wf t := by
  obtain ⟨hin, -, hdata, -⟩ := id hs
  cases h with
  | crcinit | crcbyte | crc16 | crc16n | crc16nFails | inpushFails => exact hs
  | inclr => exact Memory.wf_setInput hs (Nat.zero_le _)
  | inpush b hroom => exact Memory.wf_append hs b hroom
  | encreq slave fc start count =>
    refine Memory.wf_setOut hs ?_
    rintro _ ⟨rfl⟩
    rw [length_encodeRequest, Config.outCap_eq]
    exact Config.eight_le_bufCap.trans (Nat.le_add_right _ 3)
  | enccmd slave =>
    refine Memory.wf_setOut hs ?_
    rintro _ ⟨rfl⟩
    rw [length_sealFrame, Config.outCap_eq]
    exact Nat.add_le_add_right hin 3
  | enccmdFails => exact Memory.wf_invalidate hs .outGroup
  | decode f hf =>
    refine Memory.wf_setFrame (Memory.wf_setRegs hs (by simp)) ?_
    rintro _ ⟨rfl⟩
    exact length_data_le_fdataCap hf hin
  | decodeFails => exact Memory.wf_invalidate hs .frameAndRegs
  | extract g hg =>
    refine Memory.wf_setRegs hs ?_
    rintro _ ⟨rfl⟩
    exact length_extractRegisters_le_regsCap (hdata g hg)
  | extractFails => exact Memory.wf_invalidate hs .regsGroup

theorem frameOk_of_none (h : s.frame = none) : FrameOk s := by
  simp [FrameOk, h]

theorem regsOk_of_none (h : s.regs = none) : RegsOk s := by
  simp [RegsOk, h]

theorem outOk_of_none (h : s.out = none) : OutOk s := by
  simp [OutOk, h]

theorem CommandEffect.keeps_frameOk (h : CommandEffect s i t) (hs : FrameOk s) : FrameOk t := by
  cases h with
  | decode f hf =>
    rintro _ ⟨rfl⟩
    obtain ⟨-, htake, hvalid⟩ := decodeFrame_ok hf
    refine ⟨?_, rfl⟩
    rw [hvalid, htake, crcMatches_iff]
  | decodeFails => exact frameOk_of_none rfl
  | _ => exact hs

theorem CommandEffect.keeps_regsOk (h : CommandEffect s i t) (hs : RegsOk s) : RegsOk t := by
  cases h with
  | decode | decodeFails | extractFails => exact regsOk_of_none rfl
  | extract g hg =>
    rintro _ ⟨rfl⟩
    exact ⟨g, hg, rfl⟩
  | _ => exact hs

theorem CommandEffect.keeps_inv (h : CommandEffect s i t) (hs : s.Inv) : t.Inv := by
  obtain ⟨hwf, hframe, hregs⟩ := hs
  exact ⟨h.keeps_wf hwf, h.keeps_frameOk hframe, h.keeps_regsOk hregs⟩

/-- A frame sealed with its CRC has the form of a valid `OUT` (R25, R70). -/
theorem outOk_of_sealFrame {body : List Byte} (hlen : 2 ≤ body.length) (h : s.out = some (sealFrame body)) :
    OutOk s := by
  rintro f hf
  cases h.symm.trans hf
  refine ⟨?_, ?_⟩
  · rw [length_sealFrame]
    exact Nat.add_le_add_right hlen 2
  · rw [take_sealFrame]
    rfl

theorem CommandEffect.keeps_outOk (h : CommandEffect s i t) (hs : OutOk s) : OutOk t := by
  cases h with
  | encreq => exact outOk_of_sealFrame (by simp) rfl
  | enccmd slave hlen hpos hle =>
    refine outOk_of_sealFrame ?_ rfl
    rw [List.length_cons]
    omega
  | enccmdFails => exact outOk_of_none rfl
  | _ => exact hs

theorem inv_reset : State.reset.Inv :=
  ⟨Memory.wf_reset, frameOk_of_none rfl, regsOk_of_none rfl⟩

theorem outOk_reset : OutOk State.reset :=
  outOk_of_none rfl

/-- Settles O48: after reset no group is valid and `IN` is empty. -/
theorem resetMeetsTheInvariants : Obligations.ResetMeetsTheInvariants :=
  ⟨inv_reset, outOk_reset⟩

/-- Settles O49: every command keeps the three parts, and the rest of a step does not touch them or resets them. -/
theorem everyStepKeepsTheInvariant : Obligations.EveryStepKeepsTheInvariant :=
  fun _ _ => step_keeps (fun _ _ _ _ hs => hs) inv_reset CommandEffect.keeps_inv

/-- Settles O50: only the two building commands leave a valid `OUT` of their own, a sealed frame. -/
theorem everyStepKeepsAWireFrameInOut : Obligations.EveryStepKeepsAWireFrameInOut :=
  fun _ _ => step_keeps (fun _ _ _ _ hs => hs) outOk_reset CommandEffect.keeps_outOk

/-! ### What the host reads (R20, R22, R33) -/

theorem map_toNat_getElem?_eq_none {n : Nat} {l : List (BitVec n)} {j : Nat} :
    l[j]?.map BitVec.toNat = none ↔ l.length ≤ j := by
  rw [Option.map_eq_none_iff, List.getElem?_eq_none_iff]

theorem map_toNat_getElem?_of_lt {n : Nat} {l : List (BitVec n)} {j : Nat} (h : j < l.length) :
    l[j]?.map BitVec.toNat = some l[j].toNat := by
  rw [List.getElem?_eq_getElem h, Option.map_some]

theorem lt_of_map_toNat_getElem? {n : Nat} {l : List (BitVec n)} {j v : Nat}
    (h : l[j]?.map BitVec.toNat = some v) : v < 2 ^ n := by
  obtain ⟨x, -, rfl⟩ := Option.map_eq_some_iff.mp h
  exact x.isLt

theorem bind_map_toNat_getElem?_eq_none {α : Type} {n : Nat} {o : Option α} {l : α → List (BitVec n)} {j : Nat} :
    (o.bind fun x => (l x)[j]?.map BitVec.toNat) = none ↔ ∀ x, o = some x → (l x).length ≤ j := by
  simp only [Option.bind_eq_none_iff, map_toNat_getElem?_eq_none]

theorem lt_of_bind_map_toNat_getElem? {α : Type} {n : Nat} {o : Option α} {l : α → List (BitVec n)} {j v : Nat}
    (h : (o.bind fun x => (l x)[j]?.map BitVec.toNat) = some v) : v < 2 ^ n := by
  obtain ⟨x, -, hx⟩ := Option.bind_eq_some_iff.mp h
  exact lt_of_map_toNat_getElem? hx

/-- Settles O43: an element is missing past the length, anything else only with its whole group. -/
theorem noValueExactlyWhereTheSpecSays : Obligations.NoValueExactlyWhereTheSpecSays := by
  intro s loc
  cases loc with
  | crc | inLen | outValid | fValid | regsValid | err => simp [hostRead]
  | inByte => exact map_toNat_getElem?_eq_none
  | outByte | fData | regsWord => exact bind_map_toNat_getElem?_eq_none
  | outLen | fSlave | fFc | fDlen | fCrc | fCrcValid | fExc | regsLen => exact Option.map_eq_none_iff

/-! The capacities fit the widths of the length registers (R7, R20). -/

theorem bufCap_lt : Config.bufCap < 2 ^ 16 :=
  Nat.lt_succ_of_le Config.bufCap_le

theorem outCap_lt : Config.outCap < 2 ^ 17 := by
  have hcap := Config.bufCap_le
  rw [Config.outCap_eq]
  omega

theorem fdataCap_lt : Config.fdataCap < 2 ^ 16 :=
  (Nat.sub_le _ _).trans_lt bufCap_lt

theorem regsCap_lt : Config.regsCap < 2 ^ 16 :=
  (Nat.div_le_self _ _).trans_lt fdataCap_lt

/-- Settles O51: a register is narrower than its width by its type, a length because of the capacities. -/
theorem everyPlaceFitsItsWidth : Obligations.EveryPlaceFitsItsWidth := by
  intro s loc v hwf hv
  obtain ⟨hin, hout, hdata, hregs⟩ := hwf
  cases loc with
  | crc =>
    cases hv
    exact s.crc.isLt
  | outValid | fValid | regsValid =>
    cases hv
    exact Bool.toNat_lt _
  | err =>
    cases hv
    exact s.err.code.isLt
  | inByte => exact lt_of_map_toNat_getElem? hv
  | outByte | fData | regsWord => exact lt_of_bind_map_toNat_getElem? hv
  | fSlave | fFc | fCrc =>
    obtain ⟨g, -, rfl⟩ := Option.map_eq_some_iff.mp hv
    exact BitVec.isLt _
  | fCrcValid | fExc =>
    obtain ⟨g, -, rfl⟩ := Option.map_eq_some_iff.mp hv
    exact Bool.toNat_lt _
  | inLen =>
    cases hv
    exact hin.trans_lt bufCap_lt
  | outLen =>
    obtain ⟨f, hf, rfl⟩ := Option.map_eq_some_iff.mp hv
    exact (hout f hf).trans_lt outCap_lt
  | fDlen =>
    obtain ⟨g, hg, rfl⟩ := Option.map_eq_some_iff.mp hv
    exact (hdata g hg).trans_lt fdataCap_lt
  | regsLen =>
    obtain ⟨r, hr, rfl⟩ := Option.map_eq_some_iff.mp hv
    exact (hregs r hr).trans_lt regsCap_lt

/-- A host read looks at the block only, not at what the host has yet to do or has seen. -/
theorem hostRead_host_fields (loc : Loc) (s : State) (pending : List HostAction) (seen : List (Loc × Nat)) :
    hostRead loc { s with pending := pending, seen := seen } = hostRead loc s := by
  cases loc <;> rfl

/-- Settles O44: a read changes the host's two fields only, and no place is read from them. -/
theorem hostReadHasNoSideEffect : Obligations.HostReadHasNoSideEffect := by
  intro s loc rest hp
  have hsame : hostRead loc (s.setPending rest) = hostRead loc s := hostRead_host_fields loc s rest s.seen
  rw [step_of_read hp, ← hsame]
  refine ⟨fun v hv => ⟨_, hostReadStep_of_some hv, rfl, rfl, fun l => ?_⟩, hostReadStep_of_none⟩
  exact hostRead_host_fields l s rest _

theorem bool_toNat_eq_ite (b : Bool) : b.toNat = if b = true then 1 else 0 := by
  cases b <;> rfl

theorem hostRead_err (s : State) : hostRead .err s = some s.err.code.toNat := rfl

/-- Settles O54: group by group, valid or not, each place gives its own field's number. -/
theorem hostReadsTheValueOfEachPlace : Obligations.HostReadsTheValueOfEachPlace := by
  intro s
  refine ⟨rfl, rfl, fun i hi => map_toNat_getElem?_of_lt hi, fun h => ?_, fun f h => ?_, fun h => ?_,
    fun slave fc data crc v e h => ?_, fun h => ?_, fun r h => ?_, ?_⟩
  · simp [hostRead, State.outValid, h]
  · simp +contextual [hostRead, State.outValid, h]
  · simp [hostRead, State.fValid, h]
  · simp +contextual [hostRead, State.fValid, h, bool_toNat_eq_ite]
  · simp [hostRead, State.regsValid, h]
  · simp +contextual [hostRead, State.regsValid, h]
  · rw [hostRead_err]
    cases s.err <;> rfl

end Sys2Proof.Machine
end

section
/-! PROOF. Command words (spec/30_encoding.md): the encoder and the fields, the rows of the opcode map, the decoder as the
inverse of the encoder, and runs of presented commands up to the function calls of the source. -/

namespace Sys2Proof

variable {w : CmdWord} {i : Instr} {r : Row}

/-! ### The fields of a command word (R78) -/

theorem extractLsb'_placed_same {n : Nat} (x : BitVec n) {k : Nat} (h : k + n ≤ 64) :
    (x.setWidth 64 <<< k).extractLsb' k n = x := by
  ext j hj
  have hlt : k + j < 64 := by omega
  simp [hlt, BitVec.getLsbD_eq_getElem hj]

theorem extractLsb'_placed_disjoint {m : Nat} (x : BitVec m) {j k n : Nat} (h : j + m ≤ k ∨ k + n ≤ j) :
    (x.setWidth 64 <<< j).extractLsb' k n = 0#n := by
  ext i hi
  simpa using fun _ _ _ => BitVec.getLsbD_of_ge x _ (by omega)

/-- A field taken out of a word and put back at its place is the word under the field's mask. -/
theorem placed_extractLsb' (w : CmdWord) (k n : Nat) :
    (w.extractLsb' k n).setWidth 64 <<< k = w &&& (BitVec.allOnes n).setWidth 64 <<< k := by
  ext i hi
  by_cases hk : i < k
  · simp [hk]
  · simp [hk, Nat.add_sub_of_le (Nat.not_lt.mp hk), BitVec.getLsbD_eq_getElem hi, Bool.and_comm]

theorem Fields.toWord_eq_placed (f : Fields) :
    f.toWord = (f.op.setWidth 64 <<< 56) ||| (f.a.setWidth 64 <<< 48) ||| (f.b.setWidth 64 <<< 40) |||
      (f.h.setWidth 64 <<< 24) ||| (f.c.setWidth 64 <<< 8) ||| (f.z.setWidth 64 <<< 0) := by
  rw [BitVec.shiftLeft_zero, toWord]

@[simp] theorem Fields.ofWord_toWord (f : Fields) : Fields.ofWord f.toWord = f := by
  simp only [ofWord, opField, aField, bField, hField, cField, zField, toWord_eq_placed, BitVec.extractLsb'_or]
  simp (disch := omega) only [extractLsb'_placed_same, extractLsb'_placed_disjoint, BitVec.or_zero, BitVec.zero_or]

theorem ofWord_encode (i : Instr) : Fields.ofWord (encode i) = i.fields :=
  Fields.ofWord_toWord i.fields

@[simp] theorem opField_encode (i : Instr) : opField (encode i) = i.fields.op :=
  congrArg Fields.op (ofWord_encode i)

@[simp] theorem aField_encode (i : Instr) : aField (encode i) = i.fields.a :=
  congrArg Fields.a (ofWord_encode i)

@[simp] theorem bField_encode (i : Instr) : bField (encode i) = i.fields.b :=
  congrArg Fields.b (ofWord_encode i)

@[simp] theorem hField_encode (i : Instr) : hField (encode i) = i.fields.h :=
  congrArg Fields.h (ofWord_encode i)

@[simp] theorem cField_encode (i : Instr) : cField (encode i) = i.fields.c :=
  congrArg Fields.c (ofWord_encode i)

theorem placed_aField (w : CmdWord) : (aField w).setWidth 64 <<< 48 = w &&& 0x00FF000000000000 :=
  placed_extractLsb' w 48 8

theorem placed_bField (w : CmdWord) : (bField w).setWidth 64 <<< 40 = w &&& 0x0000FF0000000000 :=
  placed_extractLsb' w 40 8

theorem placed_hField (w : CmdWord) : (hField w).setWidth 64 <<< 24 = w &&& 0x000000FFFF000000 :=
  placed_extractLsb' w 24 16

theorem placed_cField (w : CmdWord) : (cField w).setWidth 64 <<< 8 = w &&& 0x0000000000FFFF00 :=
  placed_extractLsb' w 8 16

/-! ### The rows of the opcode map (R80, R81) -/

theorem pattern_and_mask (hr : r ∈ rows) : r.pattern &&& r.mask = r.pattern := by
  have hall : ∀ r ∈ rows, r.pattern &&& r.mask = r.pattern := by decide
  exact hall r hr

/-- The command a row builds from any word is encoded with the row's bits under the mask and the word's own bits
elsewhere. -/
theorem encode_build (hr : r ∈ rows) (w : CmdWord) : encode (r.build w) = r.pattern ||| (w &&& ~~~r.mask) := by
  simp only [rows, List.mem_cons, List.not_mem_nil, or_false] at hr
  rcases hr with rfl | rfl | rfl | rfl | rfl | rfl | rfl | rfl | rfl | rfl <;>
    simp [encode, Instr.fields, Fields.toWord, placed_aField, placed_bField, placed_hField, placed_cField,
      BitVec.or_assoc, ← BitVec.and_or_distrib_left]

theorem and_mask_eq_iff {w pattern mask : CmdWord} (h : pattern &&& mask = pattern) :
    w &&& mask = pattern ↔ pattern ||| (w &&& ~~~mask) = w := by
  constructor
  · rintro rfl
    rw [← BitVec.and_or_distrib_left, BitVec.or_not_self, BitVec.and_allOnes]
  · intro hw
    rw [← hw, BitVec.and_or_distrib_right, h, BitVec.and_assoc, BitVec.not_and_self]
    simp

/-- A row's mask and match select the words the encoder gives for the row's command. -/
theorem and_mask_eq_pattern_iff (hr : r ∈ rows) : w &&& r.mask = r.pattern ↔ encode (r.build w) = w := by
  rw [encode_build hr, and_mask_eq_iff (pattern_and_mask hr)]

/-- The row of a command's opcode builds the command back from its word. -/
theorem exists_row_of_op (i : Instr) :
    ∃ r, rows.find? (fun r => opField r.pattern == opField (encode i)) = some r ∧ r.build (encode i) = i := by
  rw [opField_encode]
  cases i with
  | crcinit | crc16 | inclr | decode | extract => exact ⟨_, rfl, rfl⟩
  | crcbyte | crc16n | inpush | encreq | enccmd => exact ⟨_, rfl, by simp [Instr.fields]⟩

theorem encode_injective : Function.Injective encode := by
  intro i j h
  obtain ⟨r, hr, hi⟩ := exists_row_of_op i
  obtain ⟨r', hr', hj⟩ := exists_row_of_op j
  rw [← h] at hr' hj
  cases hr.symm.trans hr'
  exact hi.symm.trans hj

/-! ### The decoder is the inverse of the encoder (R82, R83) -/

theorem decode_of_find?_eq_some (h : rows.find? (fun r => r.hits w) = some r) : decode w = .ok (r.build w) := by
  rw [decode, h]

theorem exists_row_of_decode (h : decode w = .ok i) : ∃ r ∈ rows, w &&& r.mask = r.pattern ∧ i = r.build w := by
  unfold decode at h
  split at h
  · next r hfind =>
    cases h
    exact ⟨r, List.mem_of_find?_eq_some hfind, by simpa [Row.hits] using List.find?_some hfind, rfl⟩
  · split at h <;> cases h

/-- Settles O2: the row that a word hits builds a command whose word it is. -/
theorem decodableWordIsItsEncoding : Obligations.DecodableWordIsItsEncoding := by
  intro w i h
  obtain ⟨r, hr, hhit, rfl⟩ := exists_row_of_decode h
  exact (and_mask_eq_pattern_iff hr).mp hhit

/-- Settles O1: the row of the command's opcode is hit, and the command decoded by the first row hit has the same
word. -/
theorem decodeOfEncodeIsTheCommand : Obligations.DecodeOfEncodeIsTheCommand := by
  intro i
  obtain ⟨r, hop, hbuild⟩ := exists_row_of_op i
  have hr := List.mem_of_find?_eq_some hop
  have hhit : encode i &&& r.mask = r.pattern := (and_mask_eq_pattern_iff hr).mpr (by rw [hbuild])
  obtain ⟨r', hfind⟩ : ∃ r', rows.find? (fun r => r.hits (encode i)) = some r' :=
    Option.isSome_iff_exists.mp (List.find?_isSome.mpr ⟨r, hr, by simpa [Row.hits] using hhit⟩)
  have hdec := decode_of_find?_eq_some hfind
  rw [hdec, encode_injective (decodableWordIsItsEncoding _ _ hdec)]

theorem decode_eq_ok_iff : decode w = .ok i ↔ encode i = w := by
  refine ⟨decodableWordIsItsEncoding w i, ?_⟩
  rintro rfl
  exact decodeOfEncodeIsTheCommand i

theorem row_decides (k : Fin 10) (w : CmdWord) :
    w &&& (rows.get k).mask = (rows.get k).pattern ↔ decode w = .ok ((rows.get k).build w) :=
  (and_mask_eq_pattern_iff (rows.get_mem k)).trans decode_eq_ok_iff.symm

/-- Settles O3: row by row. -/
theorem opcodeMapDecidesDecoding : Obligations.OpcodeMapDecidesDecoding := fun w =>
  ⟨row_decides 0 w, row_decides 1 w, row_decides 2 w, row_decides 3 w, row_decides 4 w, row_decides 5 w,
    row_decides 6 w, row_decides 7 w, row_decides 8 w, row_decides 9 w⟩

/-! ### The format view (R78, R79, R83) -/

theorem Fields.toWord_ofWord (w : CmdWord) : (Fields.ofWord w).toWord = w := by
  rw [toWord_eq_placed]
  simp only [ofWord, opField, aField, bField, hField, cField, zField, placed_extractLsb',
    ← BitVec.and_or_distrib_left]
  exact BitVec.and_allOnes

theorem encode_eq_iff_fields : encode i = w ↔ i.fields = Fields.ofWord w := by
  constructor
  · rintro rfl
    exact (ofWord_encode i).symm
  · intro h
    rw [encode, h, Fields.toWord_ofWord]

/-- The opcodes of each format (R79, R80). -/
theorem op_of_formatOf {op : BitVec 8} {k : Format} (h : formatOf op = some k) :
    match k with
    | .N => op = 0x01 ∨ op = 0x03 ∨ op = 0x10 ∨ op = 0x30 ∨ op = 0x31
    | .B => op = 0x02 ∨ op = 0x11
    | .L => op = 0x04
    | .S => op = 0x21
    | .R => op = 0x20 := by
  unfold formatOf at h
  split at h <;> cases h <;> simp [BitVec.toNat_eq, *]

theorem exists_command_of_wellFormed {f : Fields} (h : f.wellFormed = true) : ∃ i : Instr, i.fields = f := by
  obtain ⟨op, a, b, n, c, z⟩ := f
  unfold Fields.wellFormed at h
  split at h
  · next k hk =>
    have hop := op_of_formatOf hk
    cases k <;> simp only [Format.fits, Bool.and_eq_true, beq_iff_eq] at h hop
    case N =>
      obtain ⟨⟨⟨⟨rfl, rfl⟩, rfl⟩, rfl⟩, rfl⟩ := h
      rcases hop with rfl | rfl | rfl | rfl | rfl
      exacts [⟨.crcinit, rfl⟩, ⟨.crc16, rfl⟩, ⟨.inclr, rfl⟩, ⟨.decode, rfl⟩, ⟨.extract, rfl⟩]
    case B =>
      obtain ⟨⟨⟨rfl, rfl⟩, rfl⟩, rfl⟩ := h
      rcases hop with rfl | rfl
      exacts [⟨.crcbyte b, rfl⟩, ⟨.inpush b, rfl⟩]
    case L =>
      obtain ⟨⟨⟨rfl, rfl⟩, rfl⟩, rfl⟩ := h
      exact ⟨.crc16n n, by rw [hop]; rfl⟩
    case S =>
      obtain ⟨⟨rfl, rfl⟩, rfl⟩ := h
      exact ⟨.enccmd a n, by rw [hop]; rfl⟩
    case R => exact ⟨.encreq a b n c, by rw [hop, h]; rfl⟩
  · cases h

/-- Settles O4: a word decodes when it is the word of a command, and those are the words with the fields of one. -/
theorem decodableWordsAreTheWellFormedOnes : Obligations.DecodableWordsAreTheWellFormedOnes := by
  intro w
  simp only [decode_eq_ok_iff, encode_eq_iff_fields]
  constructor
  · rintro ⟨i, hi⟩
    rw [← hi]
    exact Laws.FieldsFit.all i
  · exact exists_command_of_wellFormed

theorem decode_error_of_not_wellFormed (h : (Fields.ofWord w).wellFormed = false) : ∃ e, decode w = .error e := by
  cases hd : decode w with
  | error e => exact ⟨e, rfl⟩
  | ok i =>
    rw [(decodableWordsAreTheWellFormedOnes w).mp ⟨i, hd⟩] at h
    cases h

/-- Settles O7: the words are literals, so that the decoder runs. -/
theorem wordsOfTheSpecDecodeAsItSays : Obligations.WordsOfTheSpecDecodeAsItSays := by
  unfold Obligations.WordsOfTheSpecDecodeAsItSays
  decide

namespace Machine

variable {s t : State}

/-! ### Presented words (R82, R83) -/

/-- Settles O6: presenting a word takes it from the host's list, and a word that decodes runs its command. -/
theorem stepRunsTheDecodedCommand : Obligations.StepRunsTheDecodedCommand := by
  intro s w rest i hp hd
  rw [step_of_present hp, presentWord_of_ok hd]
  rfl

/-- Settles O5: a word with ill-formed fields does not decode. -/
theorem illegalWordOnlySetsErr : Obligations.IllegalWordOnlySetsErr := by
  intro s w rest hp hbad
  obtain ⟨e, he⟩ := decode_error_of_not_wellFormed hbad
  rw [step_of_present hp, presentWord_of_error he]
  rfl

/-! ### Runs of presented commands (R85, R86) -/

/-- No command looks at the host's list. -/
theorem CommandEffect.setPending (h : CommandEffect s i t) (p : List HostAction) :
    CommandEffect (s.setPending p) i (t.setPending p) := by
  cases h with
  | crcinit => exact .crcinit
  | crcbyte b => exact .crcbyte b
  | crc16 => exact .crc16
  | crc16n n hle => exact .crc16n n hle
  | crc16nFails n hlt => exact .crc16nFails n hlt
  | inclr => exact .inclr
  | inpush b hroom => exact .inpush b hroom
  | inpushFails b hfull => exact .inpushFails b hfull
  | encreq slave fc start count => exact .encreq slave fc start count
  | enccmd slave hlen hpos hle => exact .enccmd slave hlen hpos hle
  | enccmdFails slave hlen hbad => exact .enccmdFails slave hlen hbad
  | decode f hf => exact .decode f hf
  | decodeFails hshort => exact .decodeFails hshort
  | extract g hg => exact .extract g hg
  | extractFails hnone => exact .extractFails hnone

theorem exec_setPending (h : exec i s = .next t) (p : List HostAction) :
    exec i (s.setPending p) = .next (t.setPending p) :=
  ((exec_eq_next_iff.mp h).setPending p).exec_eq

theorem step_presentAll_cons (h : exec i s = .next t) (is : List Instr) :
    step (s.presentAll (i :: is)) = .next (t.presentAll is) := by
  rw [stepRunsTheDecodedCommand _ _ _ i rfl (decodeOfEncodeIsTheCommand i)]
  exact exec_setPending h _

theorem run_succ {n : Nat} (h : step s = .next t) : core.run (n + 1) s = core.run n t := by
  have hstep : core.step s = .next t := h
  simp only [Host.Core.run, hstep]

theorem run_presentAll_cons {n : Nat} (h : exec i s = .next t) (is : List Instr) :
    core.run (n + 1) (s.presentAll (i :: is)) = core.run n (t.presentAll is) :=
  run_succ (step_presentAll_cons h is)

/-- A run of `is ++ js` goes on with `js` from where the run of `is` ends. -/
theorem run_presentAll_append {is : List Instr} (h : core.run is.length (s.presentAll is) = .next t) (n : Nat)
    (js : List Instr) : core.run (is.length + n) (s.presentAll (is ++ js)) = core.run n (t.presentAll js) := by
  induction is generalizing s with
  | nil =>
    cases h
    rw [List.length_nil, Nat.zero_add]
    rfl
  | cons i is ih =>
    obtain ⟨u, hu⟩ := CommandEffect.total i s
    rw [List.length_cons, run_presentAll_cons hu.exec_eq] at h
    rw [List.length_cons, Nat.add_right_comm, List.cons_append, run_presentAll_cons hu.exec_eq]
    exact ih h

/-- A run of commands with one more at its end. -/
theorem run_presentAll_concat {is : List Instr} {u : State} (h : core.run is.length (s.presentAll is) = .next t)
    (hi : exec i t = .next u) :
    core.run (is ++ [i]).length (s.presentAll (is ++ [i])) = .next (u.setPending []) := by
  rw [List.length_append, run_presentAll_append h, List.length_singleton, run_presentAll_cons hi]
  rfl

/-- `INPUSH` of each byte of a string that fits appends the string; an empty one leaves even `ERR` as it is. -/
theorem run_inpush_map {bs : List Byte} (herr : s.err = .ok) (hfit : s.input.length + bs.length ≤ Config.bufCap) :
    core.run bs.length (s.presentAll (bs.map .inpush)) = .next ((s.setInput (s.input ++ bs)).setPending []) := by
  induction bs generalizing s with
  | nil =>
    rw [List.append_nil]
    rfl
  | cons b bs ih =>
    rw [List.length_cons] at hfit
    have hpush := exec_inpush_of_room (s := s) b (by rw [State.inLen_eq]; omega)
    rw [List.length_cons, List.map_cons, run_presentAll_cons hpush, ih rfl (by simp; omega)]
    exact congrArg _ (State.ext_fields _ _ rfl (List.append_cons ..).symm rfl rfl rfl herr.symm rfl rfl)

/-- Settles O21: `INCLR` leaves an empty `IN` and `ERR` = 0, and the bytes are then pushed one by one. -/
theorem inloadLeavesTheBytesInInput : Obligations.InloadLeavesTheBytesInInput := by
  intro s bs hfit
  have hclear : exec .inclr s = .next ((s.setInput []).setErr .ok) := rfl
  rw [inload, run_presentAll_cons hclear, run_inpush_map rfl (by simpa using hfit)]
  rfl

/-! ### The function calls of the source (R85) -/

/-- The state that `INLOAD` of a byte string leaves (R86). -/
def State.loaded (bs : List Byte) (s : State) : State := { s with input := bs, err := .ok, pending := [] }

theorem run_inload {bs : List Byte} (hfit : bs.length ≤ Config.bufCap) (s : State) :
    core.run (inload bs).length (s.presentAll (inload bs)) = .next (s.loaded bs) := by
  rw [inload, List.length_cons, List.length_map]
  exact inloadLeavesTheBytesInInput s bs hfit

/-- A function call that loads `IN` and presents one command ends as the command does on the loaded bytes. -/
theorem run_inload_concat {bs : List Byte} (hfit : bs.length ≤ Config.bufCap) (h : exec i (s.loaded bs) = .next t) :
    core.run (inload bs ++ [i]).length (s.presentAll (inload bs ++ [i])) = .next (t.setPending []) :=
  run_presentAll_concat (run_inload hfit s) h

theorem run_callCrc16 {bs : List Byte} (hfit : bs.length ≤ Config.bufCap) (s : State) :
    core.run (callCrc16 bs).length (s.presentAll (callCrc16 bs)) = .next ((s.loaded bs).setCrc (crc16 bs)) :=
  run_inload_concat hfit CommandEffect.crc16.exec_eq

theorem run_callCrc16n {bs : List Byte} {n : Word} (hfit : bs.length ≤ Config.bufCap) (hn : n.toNat ≤ bs.length)
    (s : State) :
    core.run (callCrc16n bs n).length (s.presentAll (callCrc16n bs n)) =
      .next ((s.loaded bs).setCrc (crc16 (bs.take n.toNat))) :=
  run_inload_concat hfit (exec_crc16n_of_le (s := s.loaded bs) hn)

theorem run_callDecodeFrame_of_ok {raw : List Byte} {f : Frame} (hfit : raw.length ≤ Config.bufCap)
    (hf : decodeFrame raw = .ok f) (s : State) :
    core.run (callDecodeFrame raw).length (s.presentAll (callDecodeFrame raw)) =
      .next ((((s.loaded raw).setRegs none).setFrame (some { frame := f, exc := excFlag f.functionCode })).setCrc
        (crc16 (raw.take (raw.length - 2)))) :=
  run_inload_concat hfit (exec_decode_of_ok (s := s.loaded raw) hf)

/-- The operand `hlen` of a header that fits `IN` is its length (R85). -/
theorem toNat_ofNat_of_le_bufCap {n : Nat} (h : n ≤ Config.bufCap) : (BitVec.ofNat 16 n).toNat = n :=
  Nat.mod_eq_of_lt (h.trans_lt bufCap_lt)

/-- Settles O53: each call loads its bytes, if it takes any, and its last command meets them in `IN`. -/
theorem functionCallsRunOnTheBlock : Obligations.FunctionCallsRunOnTheBlock := by
  intro s
  refine ⟨fun bs hfit => ⟨_, run_callCrc16 hfit s, rfl, rfl⟩,
    fun bs n hfit hn => ⟨_, run_callCrc16n hfit hn s, rfl, rfl⟩,
    fun slave fc start count => ?_, fun slave header payload hfit => ?_, fun raw hfit => ?_, fun raw f hfit hf => ?_⟩
  · exact ⟨_, run_presentAll_concat (is := []) rfl (exec_encreq slave fc start count _), rfl, rfl⟩
  · have hlen : (BitVec.ofNat 16 header.length).toNat = header.length :=
      toNat_ofNat_of_le_bufCap (le_trans (by simp) hfit)
    obtain hnil | hpos := eq_or_ne header.length 0
    · refine ⟨_, run_inload_concat hfit (exec_enccmd_of_not_fits slave (.inl (hlen.trans hnil))),
        .inr ⟨.invalidArgument, ?_, rfl, rfl⟩⟩
      rw [encodeCommand, if_pos hnil]
    · have hle : (BitVec.ofNat 16 header.length).toNat ≤ (s.loaded (header ++ payload)).input.length := by
        simp [State.loaded, hlen]
      exact ⟨_, run_inload_concat hfit (exec_enccmd_of_fits slave (hlen.trans_ne hpos) hle),
        .inl ⟨_, encodeCommand_of_ne_nil slave hpos payload, rfl, rfl⟩⟩
  · obtain hshort | hlong := Nat.lt_or_ge raw.length 4
    · exact ⟨_, run_inload_concat hfit (exec_decode_of_short (s := s.loaded raw) hshort),
        .inr ⟨_, decodeFrame_of_short hshort, rfl, rfl⟩⟩
    · obtain ⟨f, hf⟩ := decodeFrame_exists hlong
      exact ⟨_, run_callDecodeFrame_of_ok hfit hf s, .inl ⟨f, _, hf, rfl, rfl, rfl⟩⟩
  · exact ⟨_, run_presentAll_concat (run_callDecodeFrame_of_ok hfit hf s) (exec_extract_of_some rfl), rfl, rfl⟩

end Machine

end Sys2Proof
end

section
/-! PROOF. The CRC Engine (spec/40_crc.md): the bit step as a linear and injective map, the byte step by it, checksums
of byte strings, the four commands, runs of the stream; and which commands may be given again. -/

namespace Sys2Proof.Machine

variable {s t : State} {i : Instr}

/-! ### The bit step (R100) -/

theorem crcBit_of_lsb_false {c : Word} (h : c.getLsbD 0 = false) : crcBit c = c >>> 1 := by
  rw [crcBit, h]
  rfl

/-- Each bit after a bit step: the next higher bit, changed where the polynomial has a 1 if a 1 was shifted out. -/
theorem getLsbD_crcBit (c : Word) (j : Nat) :
    (crcBit c).getLsbD j = (c.getLsbD (j + 1) ^^ (c.getLsbD 0 && crcPoly.getLsbD j)) := by
  unfold crcBit
  split
  · next h => rw [BitVec.getLsbD_xor, BitVec.getLsbD_ushiftRight, Nat.add_comm, h, Bool.true_and]
  · next h =>
    rw [BitVec.getLsbD_ushiftRight, Nat.add_comm, Bool.eq_false_of_not_eq_true h, Bool.false_and, Bool.xor_false]

theorem crcPoly_getLsbD_of_ne {j : Nat} (h15 : j < 15) (h13 : j ≠ 13) (h0 : j ≠ 0) : crcPoly.getLsbD j = false := by
  have hall : ∀ j < 15, j ≠ 13 → j ≠ 0 → crcPoly.getLsbD j = false := by decide
  exact hall j h15 h13 h0

theorem getLsbD_crcBit_of_feedback {c : Word} {j : Nat} (hc : c.getLsbD 0 = true) (hj : crcPoly.getLsbD j = true) :
    (crcBit c).getLsbD j = !c.getLsbD (j + 1) := by
  rw [getLsbD_crcBit, hc, hj, Bool.true_and, Bool.xor_true]

/-- The bit shifted out comes back as bit 15. -/
theorem getLsbD_crcBit_top (c : Word) : (crcBit c).getLsbD 15 = c.getLsbD 0 := by
  rw [getLsbD_crcBit, BitVec.getLsbD_of_ge c 16 le_rfl, Bool.false_xor]
  exact Bool.and_true _

/-- Settles O8: the polynomial has its ones at 15, 13 and 0. -/
theorem crcBitShiftsRightWithFeedback : Obligations.CrcBitShiftsRightWithFeedback := by
  refine ⟨fun c hc => ⟨(getLsbD_crcBit_top c).trans hc, getLsbD_crcBit_of_feedback hc rfl,
      getLsbD_crcBit_of_feedback hc rfl, fun j h15 h13 h0 => ?_⟩,
    fun c hc => ⟨(getLsbD_crcBit_top c).trans hc, fun j _ => ?_⟩, by decide⟩
  · rw [getLsbD_crcBit, crcPoly_getLsbD_of_ne h15 h13 h0, Bool.and_false, Bool.xor_false]
  · rw [getLsbD_crcBit, hc, Bool.false_and, Bool.xor_false]

theorem crcBit_xor (x y : Word) : crcBit (x ^^^ y) = crcBit x ^^^ crcBit y := by
  refine BitVec.eq_of_getLsbD_eq fun j _ => ?_
  simp only [getLsbD_crcBit, BitVec.getLsbD_xor, Bool.and_xor_distrib_right, Bool.xor_assoc, Bool.xor_left_comm]

/-- Nothing is lost in a bit step: bit 15 tells the bit shifted out. -/
theorem crcBit_injective : Function.Injective crcBit := by
  intro x y h
  have hbit (j : Nat) : (crcBit x).getLsbD j = (crcBit y).getLsbD j := by rw [h]
  have hlow : x.getLsbD 0 = y.getLsbD 0 := by
    simpa only [getLsbD_crcBit_top] using hbit 15
  refine BitVec.eq_of_getLsbD_eq fun j _ => ?_
  cases j with
  | zero => exact hlow
  | succ j => simpa only [getLsbD_crcBit, hlow, Bool.xor_left_inj] using hbit j

/-! ### Several bit steps -/

theorem crcBits_succ (n : Nat) (c : Word) : crcBits (n + 1) c = crcBit (crcBits n c) := by
  induction n generalizing c with
  | zero => rfl
  | succ n ih => exact ih (crcBit c)

theorem crcBits_xor (n : Nat) (x y : Word) : crcBits n (x ^^^ y) = crcBits n x ^^^ crcBits n y := by
  induction n with
  | zero => rfl
  | succ n ih => rw [crcBits_succ, crcBits_succ, crcBits_succ, ih, crcBit_xor]

theorem crcBits_injective (n : Nat) : Function.Injective (crcBits n) := by
  induction n with
  | zero => exact Function.injective_id
  | succ n ih => exact ih.comp crcBit_injective

/-- While only zeros are shifted out, bit steps are a shift. -/
theorem crcBits_of_low_bits_false {n : Nat} {c : Word} (h : ∀ j < n, c.getLsbD j = false) :
    crcBits n c = c >>> n := by
  induction n generalizing c with
  | zero => exact (BitVec.ushiftRight_zero c).symm
  | succ n ih =>
    have hstep : crcBit c = c >>> 1 := crcBit_of_lsb_false (h 0 n.succ_pos)
    have hlow : ∀ j < n, (c >>> 1).getLsbD j = false := fun j hj => by
      rw [BitVec.getLsbD_ushiftRight]
      exact h (1 + j) (by omega)
    rw [crcBits, hstep, ih hlow, ← BitVec.shiftRight_add, Nat.add_comm]

/-- Bits placed above the `n` that are shifted out arrive at the bottom unchanged. -/
theorem crcBits_setWidth_shiftLeft {m n : Nat} (x : BitVec m) (h : m + n ≤ 16) :
    crcBits n (x.setWidth 16 <<< n) = x.setWidth 16 := by
  have hlow : ∀ j < n, (x.setWidth 16 <<< n).getLsbD j = false := fun j hj => by simp [hj]
  rw [crcBits_of_low_bits_false hlow]
  refine BitVec.eq_of_getLsbD_eq fun j hj => ?_
  obtain hlt | hge := Nat.lt_or_ge j m
  · have hfit : n + j < 16 := by omega
    simp [hj, hfit]
  · simp [BitVec.getLsbD_of_ge x j hge]

/-! ### The byte step (R101, R109, R113) -/

/-- The low `n` bits of a byte, as a 16-bit value. -/
def lowBits (b : Byte) (n : Nat) : Word := (b.setWidth n).setWidth 16

theorem lowBits_zero (b : Byte) : lowBits b 0 = 0#16 := by
  rw [lowBits, BitVec.of_length_zero (x := b.setWidth 0), BitVec.setWidth_zero]

theorem lowBits_eight (b : Byte) : lowBits b 8 = b.setWidth 16 := by
  rw [lowBits, BitVec.setWidth_eq]

theorem lowBits_succ (b : Byte) (n : Nat) :
    lowBits b (n + 1) = lowBits b n ^^^ ((BitVec.ofBool (b.getLsbD n)).setWidth 16 <<< n) := by
  refine BitVec.eq_of_getLsbD_eq fun j hj => ?_
  obtain hlt | rfl | hgt := Nat.lt_trichotomy j n
  · simp [lowBits, hj, hlt, Nat.lt_succ_of_lt hlt]
  · simp [lowBits, hj]
  · have hne : j - n ≠ 0 := by omega
    simp [lowBits, hj, hgt.not_gt, hne, (Nat.succ_le_of_lt hgt).not_gt]

/-- Feeding the low `n` bits of a byte one by one is folding them in at once and then taking `n` bit steps. -/
theorem bitSerial_eq_crcBits (c : Word) (b : Byte) {n : Nat} (hn : n ≤ 8) :
    (List.range n).foldl (fun r i => crcBit (r ^^^ (BitVec.ofBool (b.getLsbD i)).setWidth 16)) c =
      crcBits n (c ^^^ lowBits b n) := by
  induction n with
  | zero => rw [lowBits_zero, BitVec.xor_zero, crcBits, List.range_zero, List.foldl_nil]
  | succ n ih =>
    have hbit := crcBits_setWidth_shiftLeft (n := n) (BitVec.ofBool (b.getLsbD n)) (by omega)
    rw [List.range_succ, List.foldl_append, List.foldl_cons, List.foldl_nil, ih (Nat.le_of_succ_le hn),
      lowBits_succ, ← BitVec.xor_assoc, crcBits_succ, crcBits_xor n (c ^^^ lowBits b n), hbit]

/-- Settles O9: after all eight bits the whole byte is folded in. -/
theorem crcByteEqualsBitSerialLoop : Obligations.CrcByteEqualsBitSerialLoop := by
  refine ⟨crcBit_xor, fun c b => ?_⟩
  rw [bitSerial_eq_crcBits c b le_rfl, lowBits_eight, crcByte]

theorem le16_eq_xor (lo hi : Byte) : le16 lo hi = lo.setWidth 16 ^^^ (hi.setWidth 16 <<< 8) := by
  refine BitVec.eq_of_getLsbD_eq fun j hj => ?_
  by_cases h : j < 8
  · simp [le16, hj, h]
  · simp [le16, hj, h, BitVec.getLsbD_of_ge lo j (Nat.not_lt.mp h)]

@[simp] theorem le16_lo8_hi8 (v : Word) : le16 (lo8 v) (hi8 v) = v := by
  refine BitVec.eq_of_getLsbD_eq fun j hj => ?_
  by_cases h : j < 8
  · simp [le16, lo8, hi8, hj, h]
  · have hj' : j - 8 < 8 := by omega
    simp [le16, lo8, hi8, hj, h, hj', Nat.add_sub_of_le (Nat.not_lt.mp h)]

@[simp] theorem lo8_le16 (lo hi : Byte) : lo8 (le16 lo hi) = lo := by
  refine BitVec.eq_of_getLsbD_eq fun j hj => ?_
  have hj' : j < 16 := by omega
  simp [le16, lo8, hj, hj']

@[simp] theorem hi8_le16 (lo hi : Byte) : hi8 (le16 lo hi) = hi := by
  refine BitVec.eq_of_getLsbD_eq fun j hj => ?_
  have hj' : 8 + j < 16 := by omega
  simp [le16, hi8, hj, hj']

/-- The high byte of a 16-bit value, as a number, is the value without its low byte. -/
theorem setWidth_hi8 (v : Word) : (hi8 v).setWidth 16 = v >>> 8 := by
  refine BitVec.eq_of_getLsbD_eq fun j hj => ?_
  by_cases h : j < 8
  · simp [hi8, hj, h]
  · simp [hi8, h, BitVec.getLsbD_of_ge v (8 + j) (by omega)]

theorem crcByte_zero_left (b : Byte) : crcByte 0 b = crcBits 8 (b.setWidth 16) :=
  congrArg (crcBits 8) BitVec.zero_xor

/-- Eight bit steps shift the high byte down and change it by what the low byte alone gives. -/
theorem crcBits_eight_le16 (lo hi : Byte) : crcBits 8 (le16 lo hi) = hi.setWidth 16 ^^^ crcByte 0 lo := by
  rw [le16_eq_xor, crcBits_xor, crcBits_setWidth_shiftLeft hi le_rfl, BitVec.xor_comm, crcByte_zero_left]

/-- Folding a byte in leaves the high byte as it is. -/
theorem xor_setWidth_ushiftRight_eight (c : Word) (b : Byte) : (c ^^^ b.setWidth 16) >>> 8 = c >>> 8 := by
  have hhigh : b.setWidth 16 >>> 8 = 0#16 := by
    refine BitVec.eq_of_getLsbD_eq fun j _ => ?_
    simp
  rw [BitVec.ushiftRight_xor_distrib, hhigh, BitVec.xor_zero]

/-- Settles O10: the byte is folded into the low byte only, and that is the table's index. -/
theorem crcByteEqualsTableLookup : Obligations.CrcByteEqualsTableLookup := by
  refine ⟨fun c b => ?_, by decide, by decide⟩
  calc crcByte c b
      = crcBits 8 (le16 (lo8 (c ^^^ b.setWidth 16)) (hi8 (c ^^^ b.setWidth 16))) := by rw [le16_lo8_hi8, crcByte]
    _ = (c >>> 8) ^^^ crcByte 0 (lo8 (c ^^^ b.setWidth 16)) := by
      rw [crcBits_eight_le16, setWidth_hi8, xor_setWidth_ushiftRight_eight]

/-! ### What a byte step keeps apart (R110, R112) -/

theorem crcByte_injective_left (b : Byte) : Function.Injective (crcByte · b) :=
  fun _ _ h => (BitVec.xor_left_inj _).mp (crcBits_injective 8 h)

theorem crcByte_injective_right (c : Word) : Function.Injective (crcByte c) := fun x y h => by
  have hwide : x.setWidth 16 = y.setWidth 16 := (BitVec.xor_right_inj c).mp (crcBits_injective 8 h)
  have hback := congrArg (BitVec.setWidth 8) hwide
  simpa using hback

/-- Two byte steps end at zero exactly when the bytes are those of the value, low byte first. -/
theorem crcByte_crcByte_eq_zero_iff (c : Word) (x y : Byte) : crcByte (crcByte c x) y = 0 ↔ c = le16 x y := by
  have hzero : crcBits 8 0 = 0 := by decide
  calc crcByte (crcByte c x) y = 0
      ↔ crcByte c x = y.setWidth 16 := by
        rw [← hzero, crcByte, (crcBits_injective 8).eq_iff]
        exact BitVec.xor_eq_zero_iff
    _ ↔ crcBits 8 (c ^^^ x.setWidth 16) = crcBits 8 (y.setWidth 16 <<< 8) := by
        rw [crcBits_setWidth_shiftLeft y le_rfl, crcByte]
    _ ↔ x.setWidth 16 ^^^ c = y.setWidth 16 <<< 8 := by
        rw [(crcBits_injective 8).eq_iff, BitVec.xor_comm]
    _ ↔ c = le16 x y := by
        rw [← BitVec.xor_right_inj (x.setWidth 16), ← BitVec.xor_assoc, BitVec.xor_self, BitVec.zero_xor,
          le16_eq_xor]

/-! ### Checksums of byte strings (R102, R110, R112) -/

theorem crc16_append (u v : List Byte) : crc16 (u ++ v) = v.foldl crcByte (crc16 u) :=
  List.foldl_append

theorem foldl_crcByte_injective (v : List Byte) : Function.Injective (v.foldl crcByte ·) := by
  induction v with
  | nil => exact Function.injective_id
  | cons b v ih => exact ih.comp (crcByte_injective_left b)

/-- With all other bytes fixed, different values of one byte give different checksums. -/
theorem crc16_set_injective {u : List Byte} {n : Nat} (hn : n < u.length) :
    Function.Injective fun b => crc16 (u.set n b) := fun x y h => by
  simp only [List.set_eq_take_cons_drop _ hn, crc16_append, List.foldl_cons] at h
  exact crcByte_injective_right _ (foldl_crcByte_injective _ h)

/-- Settles O11: the inverted byte is another byte at the same index. -/
theorem singleBitFlipChangesTheCrc : Obligations.SingleBitFlipChangesTheCrc := by
  intro u n k hn hk h
  have hbit : ∀ k < 8, 1#8 <<< k ≠ 0#8 := by decide
  have hsame : u[n] ^^^ 1#8 <<< k = u[n] :=
    crc16_set_injective hn (h.trans (congrArg crc16 (List.set_getElem_self hn).symm))
  have hflip : u[n] ^^^ 1#8 <<< k = u[n] ^^^ 0#8 := hsame.trans BitVec.xor_zero.symm
  exact hbit k hk ((BitVec.xor_right_inj u[n]).mp hflip)

theorem crc16_append_pair_eq_zero_iff (u : List Byte) (x y : Byte) :
    crc16 (u ++ [x, y]) = 0 ↔ crc16 u = le16 x y := by
  rw [crc16_append]
  exact crcByte_crcByte_eq_zero_iff (crc16 u) x y

/-- R140, R141: the received CRC of a Frame is the last two bytes it was parsed from. -/
theorem exists_crc_bytes_of_decodeFrame {raw : List Byte} {f : Frame} (h : decodeFrame raw = .ok f) :
    ∃ lo hi, raw = raw.take (raw.length - 2) ++ [lo, hi] ∧ f.crc = le16 lo hi := by
  unfold decodeFrame at h
  split at h
  · cases h
  · next hlong =>
    cases h
    refine ⟨_, _, ?_, rfl⟩
    have hdrop : raw.drop (raw.length - 2) = [raw[raw.length - 2], raw[raw.length - 1]] := by
      have hnext : raw.length - 2 + 1 = raw.length - 1 := by omega
      have hend : raw.length - 1 + 1 = raw.length := by omega
      rw [List.drop_eq_getElem_cons (by omega), hnext, List.drop_eq_getElem_cons (by omega), hend, List.drop_length]
    rw [← hdrop, List.take_append_drop]

/-- Settles O12: a parsed frame is the bytes its computed CRC is over, followed by its received CRC. -/
theorem zeroResidueExactlyForTheRightCrc : Obligations.ZeroResidueExactlyForTheRightCrc := by
  refine ⟨fun u x y => ?_, fun raw f hf => ?_⟩
  · refine (crc16_append_pair_eq_zero_iff u x y).trans ⟨fun h => ?_, ?_⟩
    · rw [h, lo8_le16, hi8_le16]
      exact ⟨rfl, rfl⟩
    · rintro ⟨rfl, rfl⟩
      exact (le16_lo8_hi8 _).symm
  · obtain ⟨-, -, hvalid⟩ := decodeFrame_ok hf
    obtain ⟨lo, hi, hraw, hcrc⟩ := exists_crc_bytes_of_decodeFrame hf
    rw [hvalid, crcMatches_iff, hcrc, ← crc16_append_pair_eq_zero_iff, ← hraw]

/-! ### The commands (R104 to R107) -/

theorem crc16_nil : crc16 [] = 0xFFFF := rfl

/-- Settles O13: `crcInit` is the value R7 names. -/
theorem crcinitLoadsTheInitialValue : Obligations.CrcinitLoadsTheInitialValue :=
  ⟨decode_eq_ok_iff.mpr rfl, fun _ => CommandEffect.crcinit.exec_eq⟩

/-- Settles O14: the word has the operand in the one field of its format. -/
theorem crcbyteTakesOneByteStep : Obligations.CrcbyteTakesOneByteStep := fun b =>
  ⟨decode_eq_ok_iff.mpr (by simp [encode, Instr.fields, Fields.toWord]), fun _ => (CommandEffect.crcbyte b).exec_eq⟩

/-- Settles O15: an empty `IN` takes no byte step. -/
theorem crc16ChecksumsTheWholeInput : Obligations.Crc16ChecksumsTheWholeInput := by
  refine ⟨decode_eq_ok_iff.mpr rfl, fun s => ⟨CommandEffect.crc16.exec_eq, fun hempty => ?_⟩⟩
  have hcrc : crc16 s.input = 0xFFFF := by rw [hempty, crc16_nil]
  rw [CommandEffect.crc16.exec_eq, hcrc]
  rfl

/-- Settles O16: zero bytes of `IN` and all of them are both spans that `IN` holds. -/
theorem crc16nChecksumsAPrefix : Obligations.Crc16nChecksumsAPrefix := by
  refine fun n => ⟨decode_eq_ok_iff.mpr (by simp [encode, Instr.fields, Fields.toWord]), fun s =>
    ⟨exec_crc16n_of_le, exec_crc16n_of_lt, ?_, fun hall => ?_⟩⟩
  · rintro rfl
    exact exec_crc16n_of_le (Nat.zero_le _)
  · rw [exec_crc16n_of_le hall.le, hall, List.take_length, CommandEffect.crc16.exec_eq]

/-! ### The stream (R108) -/

/-- `CRCBYTE` of each byte of a string takes the byte steps over the string; an empty one leaves even `ERR` as it is. -/
theorem run_crcbyte_map {bs : List Byte} (herr : s.err = .ok) :
    core.run bs.length (s.presentAll (bs.map .crcbyte)) =
      .next ((s.setCrc (bs.foldl crcByte s.crc)).setPending []) := by
  induction bs generalizing s with
  | nil => rfl
  | cons b bs ih =>
    rw [List.length_cons, List.map_cons, run_presentAll_cons (CommandEffect.crcbyte b).exec_eq, ih rfl]
    exact congrArg _ (State.ext_fields _ _ rfl rfl rfl rfl rfl herr.symm rfl rfl)

/-- Settles O17: the first command leaves a checksum in `CRC` and `ERR` = 0, and the byte steps go on from there. -/
theorem streamedCrcEqualsBlockCrc : Obligations.StreamedCrcEqualsBlockCrc := by
  intro s bs
  refine ⟨?_, ?_⟩
  · rw [crcStream, run_presentAll_cons CommandEffect.crcinit.exec_eq, run_crcbyte_map rfl]
    rfl
  · rw [run_presentAll_cons CommandEffect.crc16.exec_eq, run_crcbyte_map rfl, crc16_append]
    rfl

/-! ### Commands given again -/

/-- A command that takes no byte to append or to fold in reads nothing that it has itself written. -/
theorem CommandEffect.repeated (h : CommandEffect s i t) (hcrcbyte : ∀ b, i ≠ .crcbyte b)
    (hinpush : ∀ b, i ≠ .inpush b) : CommandEffect t i t := by
  cases h with
  | crcbyte b => exact absurd rfl (hcrcbyte b)
  | inpush b | inpushFails b => exact absurd rfl (hinpush b)
  | crcinit => exact .crcinit
  | crc16 => exact .crc16
  | crc16n n hle => exact .crc16n n hle
  | crc16nFails n hlt => exact .crc16nFails n hlt
  | inclr => exact .inclr
  | encreq slave fc start count => exact .encreq slave fc start count
  | enccmd slave hlen hpos hle => exact .enccmd slave hlen hpos hle
  | enccmdFails slave hlen hbad => exact .enccmdFails slave hlen hbad
  | decode f hf => exact .decode f hf
  | decodeFails hshort => exact .decodeFails hshort
  | extract g hg => exact .extract g hg
  | extractFails hnone => exact .extractFails hnone

/-- Settles O42: the second time the command meets what it read the first time. -/
theorem repeatedCommandLeavesTheSameState : Obligations.RepeatedCommandLeavesTheSameState :=
  fun _ _ _ hcrcbyte hinpush h => ((exec_eq_next_iff.mp h).repeated hcrcbyte hinpush).exec_eq

end Sys2Proof.Machine
end

section
/-! PROOF. The Frame Codec, building (spec/41_frame_encode.md): 16-bit values and their two bytes, sealed frames and what
parsing one gives, the request frame, the commands ENCREQ and ENCCMD, and the request looped back through the block. -/

namespace Sys2Proof.Machine

/-! ### A 16-bit value and its two bytes (R8, R52) -/

@[simp] theorem be16_hi8_lo8 (v : Word) : be16 (hi8 v) (lo8 v) = v :=
  (BitVec.or_comm _ _).trans (le16_lo8_hi8 v)

theorem eq_of_hi8_eq_of_lo8_eq {v v' : Word} (hhi : hi8 v = hi8 v') (hlo : lo8 v = lo8 v') : v = v' := by
  rw [← be16_hi8_lo8 v, hhi, hlo, be16_hi8_lo8]

theorem toNat_lo8 (v : Word) : (lo8 v).toNat = v.toNat % 256 := by
  rw [lo8, BitVec.extractLsb'_toNat, Nat.shiftRight_zero]

theorem toNat_hi8 (v : Word) : (hi8 v).toNat = v.toNat / 256 := by
  have hlt : v.toNat / 2 ^ 8 < 2 ^ 8 := Nat.div_lt_of_lt_mul v.isLt
  rw [hi8, BitVec.extractLsb'_toNat, Nat.shiftRight_eq_div_pow]
  exact Nat.mod_eq_of_lt hlt

theorem toNat_lo8_add_toNat_hi8 (v : Word) : (lo8 v).toNat + 256 * (hi8 v).toNat = v.toNat := by
  rw [toNat_lo8, toNat_hi8, Nat.mod_add_div]

/-! ### Sealed frames (R70, R112, R129) -/

theorem sealFrame_injective : Function.Injective sealFrame := fun body body' h => by
  rw [← take_sealFrame body, h, take_sealFrame]

/-- The zero residue of a built frame (R112). -/
theorem crc16_sealFrame (body : List Byte) : crc16 (sealFrame body) = 0 :=
  (crc16_append_pair_eq_zero_iff ..).mpr (le16_lo8_hi8 _).symm

/-- Parsing undoes sealing: the fields are the bytes the frame was built from, and the CRC is right. -/
theorem decodeFrame_sealFrame (slave fc : Byte) (data : List Byte) :
    decodeFrame (sealFrame (slave :: fc :: data)) =
      .ok
        { slaveAddress := slave
          functionCode := fc
          data := data
          crc := crc16 (slave :: fc :: data)
          crcValid := true } := by
  obtain ⟨⟨slave', fc', data', crc, valid⟩, hf⟩ :=
    decodeFrame_exists (raw := sealFrame (slave :: fc :: data)) (by simp)
  obtain ⟨-, htake, hvalid⟩ := decodeFrame_ok hf
  obtain ⟨lo, hi, hraw, hreceived⟩ := exists_crc_bytes_of_decodeFrame hf
  rw [take_sealFrame] at htake hvalid hraw
  have hcrc : crc16 (slave :: fc :: data) = crc :=
    ((crc16_append_pair_eq_zero_iff ..).mp (hraw ▸ crc16_sealFrame _)).trans hreceived.symm
  have hright : valid = true := hvalid.trans (crcMatches_iff.mpr hcrc)
  cases htake
  rw [hf, hcrc, hright]

/-! ### What the functions build (R122, R123, R125, R126) -/

/-- Settles O23: the body of the frame is the operands byte by byte, and it is sealed with its CRC. -/
theorem requestFrameHoldsItsOperands : Obligations.RequestFrameHoldsItsOperands := by
  refine ⟨fun slave fc start count => ?_, fun slave fc slave' fc' start count start' count' h => ?_⟩
  · exact ⟨_, _, _, _, _, _, rfl, be16_hi8_lo8 start, be16_hi8_lo8 count, le16_lo8_hi8 _, crc16_sealFrame _⟩
  · have hbody := sealFrame_injective h
    simp only [List.cons.injEq] at hbody
    obtain ⟨hslave, hfc, hstartHi, hstartLo, hcountHi, hcountLo, -⟩ := hbody
    exact ⟨hslave, hfc, eq_of_hi8_eq_of_lo8_eq hstartHi hstartLo, eq_of_hi8_eq_of_lo8_eq hcountHi hcountLo⟩

/-- Settles O25: any header with a first byte is sealed behind the slave address. -/
theorem commandFrameHoldsHeaderAndPayload : Obligations.CommandFrameHoldsHeaderAndPayload := by
  refine ⟨fun _ _ => rfl, by decide +kernel, fun slave header payload hne => ?_⟩
  obtain ⟨h, header, rfl⟩ := List.exists_cons_of_ne_nil hne
  have hlen : (sealFrame (slave :: (h :: header ++ payload))).length = (h :: header).length + payload.length + 3 := by
    simp
    omega
  refine ⟨_, _, _, rfl, rfl, hlen, ?_, rfl, le16_lo8_hi8 _, crc16_sealFrame _, ?_⟩
  · simp
  · rw [hlen, ← List.length_eq_zero_iff, List.length_cons]
    omega

/-- Settles O26: a header of one byte is the function code, and header and payload together are `IN`. -/
theorem requestIsASpecialCommand : Obligations.RequestIsASpecialCommand := by
  refine fun slave fc start count => ⟨rfl, fun s hin => ?_⟩
  have hfits : (1 : Word).toNat ≤ s.input.length := by simp [hin]
  rw [exec_enccmd_of_fits slave (by decide) hfits, exec_encreq, hin, encodeRequest]

/-- The heuristic on four data bytes: a first byte of 3 counts the bytes that follow it (R161, R162). -/
theorem extractRegisters_four (a b c d : Byte) :
    extractRegisters [a, b, c, d] = if a = 3 then [be16 b c] else [be16 a b, be16 c d] := by
  have hcount : a.toNat = 3 ↔ a = 3 := BitVec.toNat_inj (y := 3)
  have hoffset : prefixOffset [a, b, c, d] = if a = 3 then 1 else 0 := if_congr hcount rfl rfl
  have hlong : ¬ [a, b, c, d].length < 2 := by simp
  rw [extractRegisters, if_neg hlong, hoffset]
  split <;> rfl

/-- Settles O27: both builders seal their bytes, and parsing undoes sealing. -/
theorem parsingABuiltFrameRoundTrips : Obligations.ParsingABuiltFrameRoundTrips := by
  refine ⟨fun slave fc start count => ?_, fun slave h header payload => ?_⟩
  · refine ⟨_, _, _, _, _, decodeFrame_sealFrame .., rfl, rfl, rfl, be16_hi8_lo8 start, be16_hi8_lo8 count, rfl, rfl,
      fun hstart => ?_⟩
    exact (extractRegisters_four ..).trans (if_pos hstart)
  · exact ⟨_, _, rfl, decodeFrame_sealFrame .., rfl, rfl, rfl, rfl⟩

/-! ### The commands (R120, R124) -/

/-- The state that a command leaves which builds a frame of these bytes (R120, R124). -/
def State.sealed (body : List Byte) (s : State) : State :=
  ((s.setOut (some (sealFrame body))).setCrc (crc16 body)).setErr .ok

theorem exec_encreq_eq_sealed (slave fc : Byte) (start count : Word) (s : State) :
    exec (.encreq slave fc start count) s =
      .next (s.sealed [slave, fc, hi8 start, lo8 start, hi8 count, lo8 count]) :=
  exec_encreq slave fc start count s

theorem exec_enccmd_eq_sealed (slave : Byte) {hlen : Word} {s : State} (hpos : 1 ≤ hlen.toNat)
    (hle : hlen.toNat ≤ s.input.length) : exec (.enccmd slave hlen) s = .next (s.sealed (slave :: s.input)) :=
  exec_enccmd_of_fits slave (Nat.one_le_iff_ne_zero.mp hpos) hle

/-- Settles O22: the four operands stand in the four fields of the word. -/
theorem encreqBuildsTheRequestFrame : Obligations.EncreqBuildsTheRequestFrame := fun slave fc start count =>
  ⟨decode_eq_ok_iff.mpr (by simp [encode, Instr.fields, Fields.toWord]), exec_encreq_eq_sealed slave fc start count⟩

/-- Settles O24: header and payload together are all of `IN`, wherever the header ends. -/
theorem enccmdBuildsACommandFrameOrRefuses : Obligations.EnccmdBuildsACommandFrameOrRefuses := fun slave hlen =>
  ⟨decode_eq_ok_iff.mpr (by simp [encode, Instr.fields, Fields.toWord]), fun _ =>
    ⟨exec_enccmd_eq_sealed slave, exec_enccmd_of_not_fits slave⟩⟩

/-! ### What the host reads of a built frame (R52, R183) -/

theorem hostRead_outByte_sealed {body : List Byte} {j : Nat} {v : Byte} (h : (sealFrame body)[j]? = some v) (s : State) :
    hostRead (.outByte j) (s.sealed body) = some v.toNat :=
  congrArg (Option.map BitVec.toNat) h

/-- The host reads the bytes the frame was built from, then the number in `CRC`, low byte first. -/
theorem hostRead_sealed (body : List Byte) (s : State) :
    ∃ lo hi, hostRead .outValid (s.sealed body) = some 1 ∧ hostRead .outLen (s.sealed body) = some (body.length + 2) ∧
      (∀ j v, body[j]? = some v → hostRead (.outByte j) (s.sealed body) = some v.toNat) ∧
      hostRead (.outByte body.length) (s.sealed body) = some lo ∧
      hostRead (.outByte (body.length + 1)) (s.sealed body) = some hi ∧
      hostRead .crc (s.sealed body) = some (lo + 256 * hi) ∧ hostRead .err (s.sealed body) = some 0 := by
  refine ⟨(lo8 (crc16 body)).toNat, (hi8 (crc16 body)).toNat, rfl, congrArg some (length_sealFrame body),
    fun j v hv => hostRead_outByte_sealed ?_ s, hostRead_outByte_sealed ?_ s, hostRead_outByte_sealed ?_ s,
    congrArg some (toNat_lo8_add_toNat_hi8 _).symm, rfl⟩
  · rw [sealFrame, List.getElem?_append_left (List.getElem?_eq_some_iff.mp hv).1, hv]
  · simp [sealFrame]
  · simp [sealFrame]

/-- Settles O56: both commands leave a sealed frame, of the operands or of the slave address and `IN`. -/
theorem hostReadsTheBuiltFrame : Obligations.HostReadsTheBuiltFrame := by
  refine ⟨fun slave fc start count s => ?_, fun slave hlen s hpos hle => ?_⟩
  · obtain ⟨lo, hi, hvalid, hlen, hbyte, hlo, hhi, hcrc, herr⟩ :=
      hostRead_sealed [slave, fc, hi8 start, lo8 start, hi8 count, lo8 count] s
    simp only [← toNat_hi8, ← toNat_lo8]
    exact ⟨_, lo, hi, exec_encreq_eq_sealed slave fc start count s, hvalid, hlen, hbyte 0 _ rfl, hbyte 1 _ rfl, hbyte 2 _ rfl,
      hbyte 3 _ rfl, hbyte 4 _ rfl, hbyte 5 _ rfl, hlo, hhi, hcrc, herr⟩
  · obtain ⟨lo, hi, hvalid, hlen, hbyte, hlo, hhi, hcrc, herr⟩ := hostRead_sealed (slave :: s.input) s
    refine ⟨_, lo, hi, exec_enccmd_eq_sealed slave hpos hle, hvalid, hlen, hbyte 0 _ rfl,
      fun j hj => ?_, hlo, hhi, hcrc, herr⟩
    exact (hbyte (j + 1) _ (List.getElem?_eq_getElem hj)).trans (map_toNat_getElem?_of_lt hj).symm

/-! ### The request looped back through the block (R129, R166, R223) -/

theorem run_callExtractRegisters_of_ok {raw : List Byte} {f : Frame} (hfit : raw.length ≤ Config.bufCap)
    (hf : decodeFrame raw = .ok f) (s : State) :
    core.run (callExtractRegisters raw).length (s.presentAll (callExtractRegisters raw)) =
      .next { s.loaded raw with
        crc := crc16 (raw.take (raw.length - 2))
        frame := some { frame := f, exc := excFlag f.functionCode }
        regs := some (extractRegisters f.data) } :=
  run_presentAll_concat (run_callDecodeFrame_of_ok hfit hf s) (exec_extract_of_some rfl)

/-- Settles O52: the built frame fits every `IN`, parsing undoes the building, and the four data bytes are extracted. -/
theorem loopedBackRequestIsParsedBack : Obligations.LoopedBackRequestIsParsedBack := by
  intro s slave fc start count
  have hfit : (encodeRequest slave fc start count).length ≤ Config.bufCap :=
    (length_encodeRequest ..).trans_le Config.eight_le_bufCap
  rw [callEncodeRequest, List.singleton_append, run_presentAll_cons (exec_encreq slave fc start count s)]
  refine (run_callExtractRegisters_of_ok hfit (decodeFrame_sealFrame ..) _).trans ?_
  rw [extractRegisters_four, be16_hi8_lo8, be16_hi8_lo8]
  rfl

end Sys2Proof.Machine
end

section
/-! PROOF. The Frame Codec, parsing (spec/42_frame_decode.md): a parsed byte string is the fields of its Frame one after
another, and from that where each field stands, the command DECODE, and what the host reads after it. -/

namespace Sys2Proof.Machine

variable {raw : List Byte} {f : Frame}

/-! ### A parsed byte string and the fields of its Frame (R140, R141, R148) -/

theorem eq_fields_of_decodeFrame (h : decodeFrame raw = .ok f) :
    raw = f.slaveAddress :: f.functionCode :: f.data ++ [lo8 f.crc, hi8 f.crc] := by
  obtain ⟨-, htake, -⟩ := decodeFrame_ok h
  obtain ⟨lo, hi, hraw, hcrc⟩ := exists_crc_bytes_of_decodeFrame h
  rwa [hcrc, lo8_le16, hi8_le16, ← htake]

theorem crcValid_iff_of_decodeFrame (h : decodeFrame raw = .ok f) :
    f.crcValid = true ↔ crc16 (raw.take (raw.length - 2)) = f.crc := by
  obtain ⟨-, -, hvalid⟩ := decodeFrame_ok h
  rw [hvalid, crcMatches_iff]

/-- Settles O30: the fields are the bytes in order, and a right CRC is the one `encodeCommand` seals them with. -/
theorem parsingLosesNothing : Obligations.ParsingLosesNothing := by
  refine ⟨fun raw f => eq_fields_of_decodeFrame, fun raw raw' f h h' => ?_, fun raw f h hvalid => ?_⟩
  · rw [eq_fields_of_decodeFrame h, ← eq_fields_of_decodeFrame h']
  · obtain ⟨-, htake, -⟩ := decodeFrame_ok h
    have hcrc : crc16 (f.slaveAddress :: f.functionCode :: f.data) = f.crc :=
      htake ▸ (crcValid_iff_of_decodeFrame h).mp hvalid
    have hseal : sealFrame (f.slaveAddress :: f.functionCode :: f.data) = raw := by
      rw [sealFrame, hcrc, ← eq_fields_of_decodeFrame h]
    exact (encodeCommand_of_ne_nil _ (by simp) _).trans (congrArg Except.ok hseal)

/-- Settles O28: each position holds the byte that stands there when the fields are put one after another. -/
theorem decodeFrameReadsFixedPositions : Obligations.DecodeFrameReadsFixedPositions := by
  refine ⟨fun raw => decodeFrame_of_short, fun raw hlong => ?_⟩
  obtain ⟨f, hf⟩ := decodeFrame_exists hlong
  have hvalid : f.crcValid = true ↔ f.crc = crc16 (raw.take (raw.length - 2)) :=
    (crcValid_iff_of_decodeFrame hf).trans eq_comm
  obtain rfl := eq_fields_of_decodeFrame hf
  exact ⟨f, lo8 f.crc, hi8 f.crc, hf, rfl, rfl, by simp, by simp, by simp, (le16_lo8_hi8 f.crc).symm, hvalid⟩

/-! ### The command (R142) -/

/-- Settles O29: a frame of at least 4 bytes is parsed, whatever its CRC. -/
theorem decodeWritesTheFrameGroup : Obligations.DecodeWritesTheFrameGroup := by
  refine ⟨decode_eq_ok_iff.mpr rfl, fun s => exec_decode_of_short, fun s hlong => ?_⟩
  obtain ⟨f, hf⟩ := decodeFrame_exists hlong
  exact ⟨f, hf, exec_decode_of_ok hf, length_data_of_decodeFrame hf, (crcValid_iff_of_decodeFrame hf).symm⟩

/-! ### What the host reads after the command (R146, R183) -/

/-- The exception flag as the host sees it, from the number of the function code (R146). -/
theorem excFlag_iff (fc : Byte) : excFlag fc = true ↔ 128 ≤ fc.toNat := by
  have hmsb : excFlag fc = fc.msb := (BitVec.msb_eq_getLsbD_last fc).symm
  rw [hmsb, BitVec.msb_eq_decide, decide_eq_true_iff]

theorem toNat_le16 (lo hi : Byte) : (le16 lo hi).toNat = lo.toNat + 256 * hi.toNat := by
  rw [← toNat_lo8_add_toNat_hi8, lo8_le16, hi8_le16]

theorem hostRead_inByte {s : State} {i : Nat} {b : Byte} (h : s.input[i]? = some b) :
    hostRead (.inByte i) s = some b.toNat :=
  congrArg (Option.map BitVec.toNat) h

/-- Settles O55: the fields are those bytes of `IN` at fixed positions, so a read of a field is a read of the byte. -/
theorem hostReadsTheParsedFrame : Obligations.HostReadsTheParsedFrame := by
  intro s hlong
  obtain ⟨f, lo, hi, hf, hslave, hfc, hdata, hlo, hhi, hcrc, -⟩ := decodeFrameReadsFixedPositions.2 s.input hlong
  have hdlen : f.data.length = s.input.length - 4 := length_data_of_decodeFrame hf
  have hnumber : f.crc.toNat = lo.toNat + 256 * hi.toNat := hcrc ▸ toNat_le16 lo hi
  refine ⟨_, lo.toNat, hi.toNat, f.functionCode.toNat, exec_decode_of_ok hf, hostRead_inByte hlo, hostRead_inByte hhi,
    hostRead_inByte hfc, rfl, (hostRead_inByte hslave).symm, rfl, congrArg some hdlen, fun j hj => ?_,
    congrArg some hnumber, ?_, ?_, rfl, rfl⟩
  · have hpos : f.data[j]? = s.input[j + 2]? := by
      rw [hdata, List.getElem?_take_of_lt hj, List.getElem?_drop, Nat.add_comm]
    exact congrArg (Option.map BitVec.toNat) hpos
  · simp [hostRead, bool_toNat_eq_ite, crcValid_iff_of_decodeFrame hf, BitVec.toNat_inj]
  · simp [hostRead, bool_toNat_eq_ite, excFlag_iff]

end Sys2Proof.Machine
end

section
/-! PROOF. The Register Extractor (spec/43_register_extract.md): what the pairs of a byte string are, the registers of data
with and without a byte count, the command EXTRACT, and what the host reads after it. -/

namespace Sys2Proof.Machine

variable {d : Byte} {rest : List Byte}

/-! ### The pairs of a byte string (R52, R162) -/

theorem getElem?_bePairs {hi lo : Byte} : ∀ {s : List Byte} {j : Nat},
    s[2 * j]? = some hi → s[2 * j + 1]? = some lo → (bePairs s)[j]? = some (be16 hi lo)
  | [], _, hhi, _ => nomatch hhi
  | [_], _, _, hlo => nomatch hlo
  | _ :: _ :: _, 0, hhi, hlo => by
    cases hhi
    cases hlo
    rfl
  | _ :: _ :: s, j + 1, hhi, hlo => getElem?_bePairs (s := s) (j := j) hhi hlo

/-- Values that stand for the pairs of a byte string of even length one by one are all of its pairs. -/
theorem bePairs_eq_of_pairs {n : Nat} {p : List Byte} {r : List Word} (hp : p.length = 2 * n) (hr : r.length = n)
    (h : ∀ j, j < n → ∃ hi lo, p[2 * j]? = some hi ∧ p[2 * j + 1]? = some lo ∧ r[j]? = some (be16 hi lo)) :
    bePairs p = r := by
  have hlen : (bePairs p).length = n := by
    rw [length_bePairs, hp, Nat.mul_div_cancel_left n two_pos]
  refine List.ext_getElem?' fun j hj => ?_
  rw [hlen, hr, max_self] at hj
  obtain ⟨hi, lo, hhi, hlo, hrj⟩ := h j hj
  rw [getElem?_bePairs hhi hlo, hrj]

theorem toNat_be16 (hi lo : Byte) : (be16 hi lo).toNat = 256 * hi.toNat + lo.toNat := by
  have hswap : be16 hi lo = le16 lo hi := BitVec.or_comm ..
  rw [hswap, toNat_le16, Nat.add_comm]

/-! ### The registers of data, with and without a byte count (R160, R161, R167) -/

theorem extractRegisters_of_short {data : List Byte} (h : data.length < 2) : extractRegisters data = [] :=
  if_pos h

/-- The first byte is dropped exactly when it is the number of bytes after it. -/
theorem extractRegisters_cons (h : 1 ≤ rest.length) :
    extractRegisters (d :: rest) = bePairs ((d :: rest).drop (if d.toNat = rest.length then 1 else 0)) :=
  if_neg (Nat.not_lt.mpr (Nat.succ_le_succ h))

theorem extractRegisters_of_count (h : 1 ≤ rest.length) (hcount : d.toNat = rest.length) :
    extractRegisters (d :: rest) = bePairs rest := by
  rw [extractRegisters_cons h, if_pos hcount, List.drop_one, List.tail_cons]

theorem extractRegisters_of_no_count (h : 1 ≤ rest.length) (hcount : d.toNat ≠ rest.length) :
    extractRegisters (d :: rest) = bePairs (d :: rest) := by
  rw [extractRegisters_cons h, if_neg hcount, List.drop_zero]

/-- Settles O32: dropping `offset` bytes shifts each pair by `offset`. -/
theorem registersAreBigEndianPairs : Obligations.RegistersAreBigEndianPairs := by
  refine ⟨fun _ => extractRegisters_of_short, fun d rest hrest => ?_⟩
  intro offset
  rw [extractRegisters_cons hrest]
  refine ⟨by rw [length_bePairs, List.length_drop], fun j hj => ?_⟩
  have hlo : offset + 2 * j + 1 < (d :: rest).length := by omega
  have hhi : offset + 2 * j < (d :: rest).length := Nat.lt_of_succ_lt hlo
  refine ⟨_, _, List.getElem?_eq_getElem hhi, List.getElem?_eq_getElem hlo, getElem?_bePairs ?_ ?_⟩
  · rw [List.getElem?_drop, List.getElem?_eq_getElem hhi]
  · rw [List.getElem?_drop, ← Nat.add_assoc, List.getElem?_eq_getElem hlo]

/-- Settles O33: a right byte count is stripped and leaves the pairs; a first byte taken for one costs a register. -/
theorem prefixedAndPlainPayloadsAgree : Obligations.PrefixedAndPlainPayloadsAgree := by
  intro n p r hn hp hr hpairs
  have hreg : bePairs p = r := bePairs_eq_of_pairs hp hr hpairs
  obtain ⟨b, rest, rfl⟩ := List.exists_cons_of_length_pos (l := p) (by omega)
  have hrest : rest.length = 2 * n - 1 := Nat.eq_sub_of_add_eq hp
  have hone : 1 ≤ rest.length := by omega
  refine ⟨fun hfits => ?_, fun d hd hcount => ?_, fun d hd hcount => ?_⟩
  · have hcount : (BitVec.ofNat 8 (2 * n)).toNat = (b :: rest).length := by
      rw [hp, BitVec.toNat_ofNat]
      exact Nat.mod_eq_of_lt (Nat.lt_succ_of_le hfits)
    rw [extractRegisters_of_count (by simp) hcount, hreg]
  · cases hd
    rw [extractRegisters_of_no_count hone (hrest ▸ hcount), hreg]
  · cases hd
    rw [extractRegisters_of_count hone (hcount.trans hrest.symm)]
    intro heq
    have hlen := congrArg List.length heq
    rw [length_bePairs, hr] at hlen
    omega

/-! ### The command (R163, R164, R165) -/

/-- Settles O34: the two equations of `EXTRACT` look at nothing of a frame but its data. -/
theorem extractWritesTheRegsGroup : Obligations.ExtractWritesTheRegsGroup :=
  ⟨decode_eq_ok_iff.mpr rfl, fun _ => exec_extract_of_none, fun _ _ _ _ _ _ _ => exec_extract_of_some⟩

/-! ### What the host reads after the command (R183) -/

theorem hostRead_fData {s : State} {g : FrameRegs} {i : Nat} {b : Byte} (hg : s.frame = some g)
    (h : g.frame.data[i]? = some b) : hostRead (.fData i) s = some b.toNat := by
  rw [hostRead, hg, Option.bind_some, h, Option.map_some]

/-- Settles O57: a read of a data byte or of a register is a read of the lists that `extractRegisters` relates. -/
theorem hostReadsTheExtractedRegisters : Obligations.HostReadsTheExtractedRegisters := by
  intro s g hg
  refine ⟨_, exec_extract_of_some hg, rfl, rfl, fun hshort => ?_, fun hlong => ?_⟩
  · exact congrArg (some ∘ List.length) (extractRegisters_of_short hshort)
  · obtain ⟨d, rest, hdata⟩ := List.exists_cons_of_length_pos (Nat.zero_lt_of_lt hlong)
    have hlen : g.frame.data.length = rest.length + 1 := congrArg List.length hdata
    have hfirst : g.frame.data[0]? = some d := by rw [hdata, List.getElem?_cons_zero]
    have hcount : hostRead (.fData 0) s = some (g.frame.data.length - 1) ↔ d.toNat = rest.length := by
      rw [hostRead_fData hg hfirst, Option.some_inj, hlen, Nat.add_sub_cancel]
    obtain ⟨hcard, hpair⟩ := registersAreBigEndianPairs.2 d rest (by omega)
    simp only [hcount]
    rw [← hdata] at hcard hpair
    refine ⟨congrArg some hcard, fun j hj => ?_⟩
    obtain ⟨hi, lo, hhi, hlo, hreg⟩ := hpair j hj
    refine ⟨hi.toNat, lo.toNat, hostRead_fData hg hhi, hostRead_fData hg hlo, ?_⟩
    exact (congrArg (Option.map BitVec.toNat) hreg).trans (congrArg some (toNat_be16 hi lo))

end Sys2Proof.Machine
end

section
/-! PROOF. The buffer commands INCLR and INPUSH (spec/44_buffer_commands.md): their words and effects, and the one byte
that INPUSH stores. -/

namespace Sys2Proof.Machine

/-! ### Indices of an appended byte string (R51) -/

/-- Appending one element changes what stands at the old length only: past the new one there is nothing either way. -/
theorem getElem?_concat_of_ne_length {α : Type} {l : List α} {j : Nat} (h : j ≠ l.length) (x : α) :
    (l ++ [x])[j]? = l[j]? := by
  obtain hlt | hgt := Nat.lt_or_gt_of_ne h
  · exact List.getElem?_append_left hlt
  · rw [List.getElem?_eq_none hgt.le, List.getElem?_eq_none (by simpa using hgt)]

/-! ### INCLR (R180) -/

/-- Settles O18: the word is the command's own, and the effect is the one case of `INCLR`. -/
theorem inclrEmptiesTheInput : Obligations.InclrEmptiesTheInput :=
  ⟨decode_eq_ok_iff.mpr rfl, fun _ => CommandEffect.inclr.exec_eq⟩

/-! ### INPUSH (R181) -/

/-- Settles O19: the word has the byte in the one field of its format; the two cases are room in `IN` and none. -/
theorem inpushAppendsUnlessFull : Obligations.InpushAppendsUnlessFull := fun b =>
  ⟨decode_eq_ok_iff.mpr (by simp [encode, Instr.fields, Fields.toWord]), fun _ =>
    ⟨fun hroom => exec_inpush_of_room b hroom.ne, exec_inpush_of_full b⟩⟩

/-- Settles O20: in `IN` the byte stands after the bytes there were; outside it only `ERR` is written (R32). -/
theorem inpushStoresOneByteAtInLen : Obligations.InpushStoresOneByteAtInLen := by
  intro b s hroom
  have hexec := exec_inpush_of_room b hroom.ne
  refine ⟨_, hexec, hostRead_inByte List.getElem?_concat_length, congrArg some List.length_append, fun j hj => ?_,
    fun loc hinput herr => commandsWriteOnlyTheirGroups _ _ _ loc hexec ?_⟩
  · exact congrArg (Option.map BitVec.toNat) (getElem?_concat_of_ne_length hj b)
  · simp [successWrites, hinput, herr]

end Sys2Proof.Machine
end

section
/-! PROOF. The error codes (spec/60_exceptions.md): every command completes, the code each command ends with and its number
at `ERR`, what a failing command leaves, and where the machine stops. -/

namespace Sys2Proof.Machine

variable {s t : State} {i : Instr}

/-! ### Commands complete (R190, R201) -/

theorem CommandEffect.keeps_host_fields (h : CommandEffect s i t) : t.pending = s.pending ∧ t.seen = s.seen := by
  cases h <;> exact ⟨rfl, rfl⟩

/-- Settles O35: the cases of a command's effect are complete, and each is an update of the block's own fields. -/
theorem everyCommandCompletesInEveryState : Obligations.EveryCommandCompletesInEveryState := by
  intro i s
  obtain ⟨t, ht⟩ := CommandEffect.total i s
  exact ⟨t, ht.exec_eq, ht.keeps_host_fields⟩

theorem exists_next_of_presentWord (w : CmdWord) (s : State) : ∃ t, presentWord w s = .next t := by
  cases hd : decode w with
  | ok i =>
    obtain ⟨t, ht⟩ := CommandEffect.total i s
    exact ⟨t, (presentWord_of_ok hd s).trans ht.exec_eq⟩
  | error e => exact ⟨_, presentWord_of_error hd s⟩

/-- Settles O45: of the host's actions only a read can be refused, and only where `hostRead` has no value. -/
theorem machineStopsOnlyAtAReadOfNoValue : Obligations.MachineStopsOnlyAtAReadOfNoValue := by
  intro s
  match hp : s.pending with
  | [] => exact .inl ⟨s, step_of_idle hp⟩
  | .present w :: rest =>
    rw [step_of_present hp]
    exact .inl (exists_next_of_presentWord w _)
  | .read loc :: rest =>
    have hsame : hostRead loc (s.setPending rest) = hostRead loc s := hostRead_host_fields loc s rest s.seen
    rw [step_of_read hp]
    cases hv : hostRead loc s with
    | none => exact .inr ⟨loc, rest, rfl, hv, hostReadStep_of_none (hsame.trans hv)⟩
    | some v => exact .inl ⟨_, hostReadStep_of_some (hsame.trans hv)⟩
  | .reset :: rest => exact .inl ⟨_, step_of_reset hp⟩

/-! ### The code a command ends with (R191, R192) -/

/-- The table of R192: the code that a command ends with, by what it meets in the state. -/
def resultCode (s : State) (i : Instr) : ErrCode :=
  match i with
  | .crc16n n => if s.input.length < n.toNat then .invalidArgument else .ok
  | .inpush _ => if s.input.length = Config.bufCap then .capacity else .ok
  | .enccmd _ hlen => if hlen.toNat = 0 ∨ s.input.length < hlen.toNat then .invalidArgument else .ok
  | .decode => if s.input.length < 4 then .malformedFrame else .ok
  | .extract => if s.frame = none then .noFrame else .ok
  | .crcinit | .crcbyte _ | .crc16 | .inclr | .encreq _ _ _ _ => .ok

theorem CommandEffect.err_eq_resultCode (h : CommandEffect s i t) : t.err = resultCode s i := by
  cases h with
  | crcinit | crcbyte | crc16 | inclr | encreq => rfl
  | crc16n n hle => exact (if_neg (Nat.not_lt.mpr hle)).symm
  | crc16nFails n hlt => exact (if_pos hlt).symm
  | inpush b hroom => exact (if_neg hroom).symm
  | inpushFails b hfull => exact (if_pos hfull).symm
  | enccmd slave hlen hpos hle => exact (if_neg (not_or.mpr ⟨hpos, Nat.not_lt.mpr hle⟩)).symm
  | enccmdFails slave hlen hbad => exact (if_pos hbad).symm
  | decode f hf =>
    obtain ⟨hlong, -, -⟩ := decodeFrame_ok hf
    exact (if_neg (Nat.not_lt.mpr hlong)).symm
  | decodeFails hshort => exact (if_pos hshort).symm
  | extract g hg => exact (if_neg (by simp [hg])).symm
  | extractFails hnone => exact (if_pos hnone).symm

theorem resultCode_eq_malformedFrame_iff :
    resultCode s i = .malformedFrame ↔ i = .decode ∧ s.input.length < 4 := by
  cases i <;> simp [resultCode, ite_eq_iff]

theorem resultCode_eq_invalidArgument_iff :
    resultCode s i = .invalidArgument ↔
      (∃ slave hlen, i = .enccmd slave hlen ∧ (hlen.toNat = 0 ∨ s.input.length < hlen.toNat)) ∨
      ∃ n, i = .crc16n n ∧ s.input.length < n.toNat := by
  cases i <;> simp [resultCode, ite_eq_iff, or_iff_not_imp_left]

theorem resultCode_ne_illegalCommand : resultCode s i ≠ .illegalCommand := by
  cases i <;> simp [resultCode, ite_eq_iff]

theorem resultCode_eq_capacity_iff :
    resultCode s i = .capacity ↔ (∃ b, i = .inpush b) ∧ s.input.length = Config.bufCap := by
  cases i <;> simp [resultCode, ite_eq_iff]

theorem resultCode_eq_noFrame_iff : resultCode s i = .noFrame ↔ i = .extract ∧ s.frame = none := by
  cases i <;> simp [resultCode, ite_eq_iff]

/-! ### The number read at `ERR` (R191) -/

theorem ErrCode.code_injective : Function.Injective ErrCode.code := by
  intro e e'
  cases e <;> cases e' <;> decide

/-- A code's number is read at `ERR` exactly when the code is there. -/
theorem hostRead_err_eq_code_iff (e : ErrCode) : hostRead .err t = some e.code.toNat ↔ t.err = e := by
  rw [hostRead_err, Option.some_inj, BitVec.toNat_inj, ErrCode.code_injective.eq_iff]

theorem CommandEffect.hostRead_err_eq_iff_resultCode (h : CommandEffect s i t) (e : ErrCode) :
    hostRead .err t = some e.code.toNat ↔ resultCode s i = e := by
  rw [hostRead_err_eq_code_iff, h.err_eq_resultCode]

/-- After a presented word `ERR` holds ILLEGAL_COMMAND exactly when the word is no command (R83). -/
theorem err_eq_illegalCommand_iff {w : CmdWord} {rest : List HostAction} (hp : s.pending = .present w :: rest)
    (h : step s = .next t) : t.err = .illegalCommand ↔ (Fields.ofWord w).wellFormed = false := by
  cases hw : (Fields.ofWord w).wellFormed with
  | false =>
    rw [illegalWordOnlySetsErr s w rest hp hw] at h
    cases h
    simp
  | true =>
    obtain ⟨i, hi⟩ := (decodableWordsAreTheWellFormedOnes w).mpr hw
    rw [stepRunsTheDecodedCommand s w rest i hp hi, exec_eq_next_iff] at h
    simp [h.err_eq_resultCode, resultCode_ne_illegalCommand]

/-- Settles O36: `ERR` holds the code the table gives the command, and different codes have different numbers. -/
theorem errorCodesHaveExactlyTheirCauses : Obligations.ErrorCodesHaveExactlyTheirCauses := by
  refine ⟨fun i s t h => ?_, fun s t w rest hp h => ?_⟩
  · have heff := exec_eq_next_iff.mp h
    have hread := heff.hostRead_err_eq_iff_resultCode
    rw [heff.err_eq_resultCode]
    exact ⟨resultCode_eq_malformedFrame_iff, resultCode_eq_invalidArgument_iff, resultCode_ne_illegalCommand,
      resultCode_eq_capacity_iff, resultCode_eq_noFrame_iff,
      (hread .malformedFrame).trans resultCode_eq_malformedFrame_iff,
      (hread .invalidArgument).trans resultCode_eq_invalidArgument_iff,
      (hread .illegalCommand).not.mpr resultCode_ne_illegalCommand,
      (hread .capacity).trans resultCode_eq_capacity_iff,
      (hread .noFrame).trans resultCode_eq_noFrame_iff,
      hread .ok⟩
  · exact (hostRead_err_eq_code_iff .illegalCommand).trans (err_eq_illegalCommand_iff hp h)

/-! ### What a failing command leaves (R195) -/

/-- Settles O37: a command that does not end with OK is one of the five failures, whose next states are these. -/
theorem failingCommandWritesOnlyErrAndValidBits : Obligations.FailingCommandWritesOnlyErrAndValidBits := by
  intro i s t h herr
  cases exec_eq_next_iff.mp h with
  | crcinit | crcbyte | crc16 | crc16n | inclr | inpush | encreq | enccmd | decode | extract => exact absurd rfl herr
  | crc16nFails | inpushFails | enccmdFails | decodeFails | extractFails => rfl

end Sys2Proof.Machine
end

section
/-! PROOF. Hazards (spec/70_reset_and_hazards.md): a received frame checked by hand, against what DECODE finds. -/

namespace Sys2Proof.Machine

/-- `CRC16N (IN_LEN - 2)`: the checksum of `IN` without its CRC field; the length of an `IN` within its capacity fits the
16-bit operand (R107, R230). -/
theorem exec_crc16n_without_crc {s : State} (hfit : s.input.length ≤ Config.bufCap) :
    exec (.crc16n (BitVec.ofNat 16 (s.input.length - 2))) s =
      .next ((s.setCrc (crc16 (s.input.take (s.input.length - 2)))).setErr .ok) := by
  have hspan : s.input.length - 2 ≤ s.input.length := Nat.sub_le ..
  have hoperand : (BitVec.ofNat 16 (s.input.length - 2)).toNat = s.input.length - 2 :=
    toNat_ofNat_of_le_bufCap (hspan.trans hfit)
  rw [exec_crc16n_of_le (hoperand.trans_le hspan), hoperand]

/-- Settles O31: `CRC16N` and `DECODE` checksum the same span, and the whole frame has checksum zero exactly when its CRC
field is right (R112). -/
theorem checkingByHandAgreesWithDecode : Obligations.CheckingByHandAgreesWithDecode := by
  intro s hlong hfit
  obtain ⟨f, hf⟩ := decodeFrame_exists hlong
  have hresidue : f.crcValid = true ↔ crc16 s.input = 0x0000 := zeroResidueExactlyForTheRightCrc.2 s.input f hf
  exact ⟨_, _, _, _, exec_crc16n_without_crc hfit, CommandEffect.crc16.exec_eq, exec_decode_of_ok hf, rfl, rfl, rfl,
    (crcValid_iff_of_decodeFrame hf).symm, hresidue.symm⟩

end Sys2Proof.Machine
end

section
/-! PROOF. Reset (spec/10_state.md section 5; spec/70_reset_and_hazards.md section 1): what the host reads after it, the reset
event, and what each command does on the state after it. -/

namespace Sys2Proof.Machine

/-! ### The state after reset (R34, R220, R221) -/

/-- Settles O46: after reset `IN` is empty and no group is valid, so the six places that always hold a value are the only
ones with one; the reset event keeps nothing but the host's two fields, which no place is read from. -/
theorem resetRestoresTheTable : Obligations.ResetRestoresTheTable := by
  refine ⟨⟨rfl, rfl, rfl, rfl, rfl, rfl, fun loc hcrc hinLen hout hframe hregs herr => ?_⟩, fun s rest hp => ?_⟩
  · cases loc with
    | crc => exact absurd rfl hcrc
    | inLen => exact absurd rfl hinLen
    | outValid => exact absurd rfl hout
    | fValid => exact absurd rfl hframe
    | regsValid => exact absurd rfl hregs
    | err => exact absurd rfl herr
    | inByte | outLen | outByte | fSlave | fFc | fDlen | fData | fCrc | fCrcValid | fExc | regsLen | regsWord => rfl
  · exact ⟨_, step_of_reset hp, rfl, fun loc => hostRead_host_fields loc State.reset rest s.seen⟩

/-! ### The commands after reset (R222) -/

/-- An empty `IN` is not full, since `BUF_CAP` is at least 8 (R7). -/
theorem inLen_reset_ne_bufCap : State.reset.inLen ≠ Config.bufCap :=
  ((Nat.succ_pos 7).trans_le Config.eight_le_bufCap).ne

/-- Settles O47: `IN` is empty and no frame is parsed, which decides each command's case; for `ENCCMD` every header is empty
or too long. -/
theorem commandsOnTheResetState : Obligations.CommandsOnTheResetState :=
  ⟨CommandEffect.crcinit.exec_eq,
    fun b => (CommandEffect.crcbyte b).exec_eq,
    CommandEffect.crc16.exec_eq,
    exec_crc16n_of_le (Nat.zero_le 0),
    fun _ hn => exec_crc16n_of_lt hn,
    CommandEffect.inclr.exec_eq,
    fun b => exec_inpush_of_room b inLen_reset_ne_bufCap,
    fun slave fc start count => ⟨_, exec_encreq slave fc start count State.reset, rfl⟩,
    fun slave hlen => exec_enccmd_of_not_fits slave (Nat.eq_zero_or_pos hlen.toNat),
    exec_decode_of_short (Nat.succ_pos 3),
    exec_extract_of_none rfl⟩

end Sys2Proof.Machine
end
